-- ==== Sys2Proof/Word.lean ====
section
/-! DEFINITION. The word types of the hardware (spec 00_scope.md R5, R7). Every value is unsigned and
none is ever sign-extended (R7). -/

namespace Sys2Proof

/-- The 32-bit word: "16 fixed-size 32-bit unsigned words" (R5, R21). -/
abbrev Word := BitVec 32

/-- A byte lane of a word (R52). -/
abbrev Byte := BitVec 8

/-- The block counter's 64-bit value (R22). -/
abbrev U64 := BitVec 64

/-- A byte offset into the 256-byte register window, `0 <= off <= 0xFF` (R51). -/
abbrev Offset := BitVec 8

/-- A 16-word (64-byte) buffer (R5: BLOCK_BYTES). -/
abbrev Block := Vector Word 16

/-- `n` zero words: what "zeroise" writes (00_scope.md section 5). -/
def zeros (n : Nat) : Vector Word n := Vector.replicate n 0

end Sys2Proof
end

