-- ==== Sys2Proof/Syntax.lean ====
section
/-! DEFINITION. The six commands of the opcode map (spec 30_encoding.md R83), one constructor per row of
spec/opcode_table.json. The operands are the byte counts of R82, "unsigned naturals 0..255";
WellFormed.lean bounds them. -/

namespace Sys2Proof

/-- A command (R83). -/
inductive Instr where
  /-- NOP, OP 0x0 (R101). -/
  | nop
  /-- INIT, OP 0x1: FA = KLEN, FB = NLEN (R103). -/
  | init (klen nlen : Nat)
  /-- APPLY, OP 0x2: FA = LEN (R163). -/
  | apply (len : Nat)
  /-- KSBLOCK, OP 0x3 (R149). -/
  | ksblock
  /-- TRANSFORM, OP 0x4 (R130). -/
  | transform
  /-- CLEAR, OP 0x5 (R106). -/
  | clear
deriving DecidableEq, Repr

end Sys2Proof
end

