-- ==== Sys2Proof/WellFormed.lean ====
section
/-! DEFINITION. The well-formed instructions: the operands are the 8-bit fields of R81 and R82
(30_encoding.md). A length a command rejects (KLEN != 32, NLEN != 8, LEN > 64) is well formed: R87 says
such words decode legally and raise the command's own error. -/

namespace Sys2Proof

/-- A byte count fits its 8-bit field (R82: "unsigned naturals 0..255"). -/
abbrev fitsField (n : Nat) : Prop := n < 256

/-- Every operand fits its field of the command word. -/
def Instr.WellFormed : Instr → Prop
  | .nop => True
  | .init klen nlen => fitsField klen ∧ fitsField nlen
  | .apply len => fitsField len
  | .ksblock => True
  | .transform => True
  | .clear => True

/-- The same check as a Bool. -/
def Instr.wellFormed : Instr → Bool
  | .nop => true
  | .init klen nlen => decide (fitsField klen) && decide (fitsField nlen)
  | .apply len => decide (fitsField len)
  | .ksblock => true
  | .transform => true
  | .clear => true

end Sys2Proof
end

