-- ==== Sys2Proof/Decode.lean ====
section
/-! DEFINITION. The command word: its fields (spec 30_encoding.md R81), the decoder (R84), the encoder
(R81, R88) and the match and mask rows (R85). The decoder is total on the 2^32 words and names why it
rejects one; every rejection is the one command error IllegalCommand (R86). -/

namespace Sys2Proof

/-- OP, bits [3:0] (R81). -/
def opField (w : Word) : BitVec 4 := w.extractLsb' 0 4
/-- FA, bits [11:4] (R81). -/
def faField (w : Word) : BitVec 8 := w.extractLsb' 4 8
/-- FB, bits [19:12] (R81). -/
def fbField (w : Word) : BitVec 8 := w.extractLsb' 12 8
/-- RSV, bits [31:20] (R81). -/
def rsvField (w : Word) : BitVec 12 := w.extractLsb' 20 12

/-- Why a word is illegal (the list of R86). -/
inductive DecodeError where
  /-- RSV != 0. -/
  | reservedField
  /-- A field the opcode does not use is not 0. -/
  | unusedField
  /-- OP 0x6 to 0xF. -/
  | reservedOpcode
deriving DecidableEq, Repr

/-- A command without operands needs FA = FB = 0 (R84). -/
def withoutOperands (w : Word) (i : Instr) : Except DecodeError Instr :=
  if faField w ≠ 0 ∨ fbField w ≠ 0 then .error .unusedField else .ok i

/-- The decoder of R84, in its order of checks. -/
def decode (w : Word) : Except DecodeError Instr :=
  if rsvField w ≠ 0 then .error .reservedField
  else match (opField w).toNat with
    | 0 => withoutOperands w .nop
    | 1 => .ok (.init (faField w).toNat (fbField w).toNat)
    | 2 => if fbField w ≠ 0 then .error .unusedField else .ok (.apply (faField w).toNat)
    | 3 => withoutOperands w .ksblock
    | 4 => withoutOperands w .transform
    | 5 => withoutOperands w .clear
    | _ => .error .reservedOpcode

/-- The instruction the decoder reads from a table row's word. Every command is one 32-bit word (R80);
bits above `nbits` are 0. -/
def decodeTableWord (nbits w : Nat) : Option Instr :=
  (decode (BitVec.ofNat 32 (w % 2 ^ nbits))).toOption

/-- A command word from its fields (R81). -/
def commandWord (op : BitVec 4) (fa fb : Nat) : Word :=
  0#12 ++ BitVec.ofNat 8 fb ++ BitVec.ofNat 8 fa ++ op

/-- The encoder: the opcode map of R83 with the fields of R81. -/
def encode : Instr → Word
  | .nop => commandWord 0x0 0 0
  | .init klen nlen => commandWord 0x1 klen nlen
  | .apply len => commandWord 0x2 len 0
  | .ksblock => commandWord 0x3 0 0
  | .transform => commandWord 0x4 0 0
  | .clear => commandWord 0x5 0 0

/-- One row of the match and mask table (R85). -/
structure OpcodeRow where
  mnemonic : String
  pattern : Word
  mask : Word
deriving DecidableEq, Repr

/-- A word belongs to a row exactly when `(w & mask) = match` (R85). -/
def OpcodeRow.accepts (r : OpcodeRow) (w : Word) : Bool := w &&& r.mask == r.pattern

/-- The row of each command (R85). -/
def Instr.row : Instr → OpcodeRow
  | .nop => ⟨"NOP", 0x00000000, 0xFFFFFFFF⟩
  | .init _ _ => ⟨"INIT", 0x00000001, 0xFFF0000F⟩
  | .apply _ => ⟨"APPLY", 0x00000002, 0xFFFFF00F⟩
  | .ksblock => ⟨"KSBLOCK", 0x00000003, 0xFFFFFFFF⟩
  | .transform => ⟨"TRANSFORM", 0x00000004, 0xFFFFFFFF⟩
  | .clear => ⟨"CLEAR", 0x00000005, 0xFFFFFFFF⟩

/-- The table of R85. -/
def opcodeRows : List OpcodeRow :=
  [Instr.nop.row, (Instr.init 0 0).row, (Instr.apply 0).row, Instr.ksblock.row, Instr.transform.row,
    Instr.clear.row]

end Sys2Proof
end

