-- ==== Sys2Proof/Config.lean ====
section
/-! DEFINITION. What an implementation fixes (the named parameters of spec 00_scope.md R6) and the free
values the spec leaves as a draw. Each is an opaque constant with no body, so no proof can lean on a
value of it. -/

namespace Sys2Proof

/-- The parameter SIGMA (R6): the four constant words. "Do not assume that a built device uses the default"
(91_not_in_source.md); a claim about keystream values takes `Config.sigma = defaultSigma` as a premise.
DESIGN CHOICE, safe (log entry 1). -/
opaque Config.sigma : Vector Word 4

/-- The default of SIGMA (R6, 92 D23): "expand 32-byte k" as four little-endian words. Only tests and
premises use it. -/
def defaultSigma : Vector Word 4 := #v[0x61707865, 0x3320646e, 0x79622d32, 0x6b206574]

/-- The parameter BASE_ADDR (R6, R50): the bus address of register offset 0x00, "set by the platform".
Safe (log entry 12). -/
opaque Config.baseAddr : Nat

/-- Bits [31:1] of a STATUS read that returns BUSY = 1 are a draw (R31, R207, 93 U2): one free value for
each number of `State.draws`. Safe (log entry 2). -/
opaque Config.freeStatus : Nat → BitVec 31

/-- How many host accesses come before a command's completion is a draw, "any finite number, including 0"
(R205, 93 U3; the parameter LATENCY of R6): one free value for each number of `State.draws`. Safe (log
entry 3). -/
opaque Config.freeLatency : Nat → Nat

end Sys2Proof
end

