-- ==== Sys2Proof/Machine/HostProgram.lean ====
section
/-! DEFINITION. The host program the machine's port serves: "the host's sequence of bus accesses"
(spec 10_state.md R41, 30_encoding.md R89). A statement is the base form, with its label already a
program index; HostSyntax.lean holds the symbolic forms of R89 to R92. -/

namespace Sys2Proof.Machine

/-- One host access of the base syntax (R89). -/
inductive Access where
  /-- `MemRead(off, n)` (R58); `RD off` is `n = 4`. -/
  | read (off : Offset) (n : Nat)
  /-- `MemWrite(off, n, v)` (R59); `WR off, v` is `n = 4`. -/
  | write (off : Offset) (n : Nat) (v : Word)
  /-- `RD off == v`: a read with a stated expectation. The expectation is a claim about the run and has no
  effect: DEDUCED (log entry 16). -/
  | readExpect (off : Offset) (v : Word)
  /-- `BNZ off, mask, label`, the label as a program index. -/
  | branchNonzero (off : Offset) (mask : Word) (target : Nat)
deriving DecidableEq, Repr

/-- One statement of a host program. -/
inductive HostStmt where
  /-- An access and the bus master that issues it. The masters exist only so that interleaved ones can be
  refused by name (R195, log entry 11). -/
  | access (a : Access) (master : Nat)
  /-- `RESET` (R200), "an event the platform supplies". -/
  | reset
deriving DecidableEq, Repr

/-- `WR off, v` (R89). -/
def Access.wr (off : Offset) (v : Word) : Access := .write off 4 v

/-- `RD off` (R89). -/
def Access.rd (off : Offset) : Access := .read off 4

end Sys2Proof.Machine
end

