-- ==== Sys2Proof/Machine/State.lean ====
section
/-! DEFINITION. The state of the machine as plain data: every row of the state table (spec 10_state.md R20),
the host program with its pc (R41), what the host received, and the model's own counters for the draws
(log entries 2, 3, 7). Also the reasons a step can stop, and the state after reset (R43). -/

namespace Sys2Proof.Machine

/-- The reasons of a bus error, in the priority of R55. -/
inductive BusReason where
  | badWidth
  | misaligned
  | unmapped
  | busyAccess
deriving DecidableEq, Repr

/-- A record `BusError(reason, pc)` of FAULTS (R39, R57). -/
structure FaultRecord where
  reason : BusReason
  pc : Nat
deriving DecidableEq, Repr

/-- What the port answered to one host access (R57, R58, R59). -/
inductive Response where
  /-- The value of a read. -/
  | data (v : Word)
  /-- A write was accepted. -/
  | accepted
  /-- The error response of a bus error: "for a read it receives no data" (R57). -/
  | error (r : BusReason)
deriving DecidableEq, Repr

/-- The registers of the window (R20, R54). -/
inductive Reg where
  | cmd
  | status
  | ctrLo
  | ctrHi
  | keyIn (k : Fin 8)
  | nonceIn (j : Fin 2)
  | dataIn (i : Fin 16)
  | dataOut (i : Fin 16)
deriving DecidableEq, Repr

/-- The command errors with a code other than OK (R180). -/
inductive CommandError where
  | illegalCommand
  | invalidKeyLength
  | invalidNonceLength
  | notInitialized
  | invalidLength
  | partialBlockPending
  | counterExhausted
deriving DecidableEq, Repr

/-- The state. `CTR_LO`, `CTR_HI` and `STATUS` are views (R31, R34) and CMD's written word is PENDING
(R33), so each is stored once. -/
structure State where
  /-- `S[0..15]`, the CipherState (R21). -/
  cipher : Block
  /-- VALID (R26). -/
  valid : Bool
  /-- KS_POS (R31, R161). -/
  ksPos : BitVec 6
  /-- ERR (R32, R180). -/
  err : BitVec 4
  /-- BUSY (R33). -/
  busy : Bool
  /-- PENDING: the command word in flight, or none (R33). -/
  pending : Option Word
  /-- `KEY_IN[0..7]` (R28). -/
  keyIn : Vector Word 8
  /-- `NONCE_IN[0..1]` (R29). -/
  nonceIn : Vector Word 2
  /-- `DATA_IN[0..15]` (R30). -/
  dataIn : Block
  /-- `DATA_OUT[0..15]` (R35). -/
  dataOut : Block
  /-- `W[0..15]`, the transform's working buffer (R37). -/
  work : Block
  /-- `K[0..15]`, the keystream block in use (R37). -/
  keystream : Block
  /-- FAULTS (R39): a set, held as a list with no repeats (log entry 8). -/
  faults : List FaultRecord
  /-- The host program (R41, log entry 4). -/
  program : List HostStmt
  /-- The index of the host's next statement (R41). -/
  pc : Nat
  /-- The port's answers so far, oldest first: the observed values of R213 (log entry 7). -/
  responses : List Response
  /-- The master whose turn it is; none before the first access (R195, log entry 11). -/
  turn : Option Nat
  /-- The model's own: how many more host accesses come before the completion of the command in flight
  (R205, log entry 3). A statement about it holds for every value. -/
  wait : Nat
  /-- The model's own: how many host accesses have drawn free values (log entries 2, 3). A statement about
  a free value holds for every value of this field. -/
  draws : Nat
deriving DecidableEq, Repr

/-- Why the machine stops. Bus errors are no stop: the spec records them in FAULTS and the run goes on
(R57, P5 of 95_test_vectors.md). -/
inductive Fault where
  /-- Raised by `engineStep` in a state with BUSY = 1 and PENDING = none, which the spec gives no meaning
  and no run reaches (`State.Inv`). DESIGN CHOICE, safe (log entry 9). -/
  | engineWithoutCommand
deriving DecidableEq, Repr

/-- Why the machine refuses. -/
inductive Refusal where
  /-- An instruction without a meaning yet, by its mnemonic. No arm of `exec` raises it. Safe. -/
  | notModelled (mnemonic : String)
  /-- Raised by `hostStep`: "A program with two interleaved masters is refused by name ("MultiMaster"), not
  given a meaning" (R195). Safe (log entry 11). -/
  | multiMaster
deriving DecidableEq, Repr

/-- The state after reset (R43), with no host program placed. The spec gives every hardware value; the
last six fields are the host's and the model's (log entries 3, 4, 18). -/
def State.reset : State where
  cipher := zeros 16
  valid := false
  ksPos := 0
  err := 0
  busy := false
  pending := none
  keyIn := zeros 8
  nonceIn := zeros 2
  dataIn := zeros 16
  dataOut := zeros 16
  work := zeros 16
  keystream := zeros 16
  faults := []
  program := []
  pc := 0
  responses := []
  turn := none
  wait := 0
  draws := 0

end Sys2Proof.Machine
end

