-- ==== Sys2Proof/Machine/Operands.lean ====
section
/-! DEFINITION. The operands of the commands, which are all implicit (spec 30_encoding.md R82): byte order
(20_memory.md R52), the counter (10_state.md R22), the block input (42_keystream_gen.md R141) and the
stream position (43_xor_streamer.md R161). -/

namespace Sys2Proof.Machine

/-- `byte(B, j)`, little-endian: byte lane `j mod 4` of word `j div 4` (R52), for `j < 4 n`. -/
def byteOf {n : Nat} (B : Vector Word n) (j : Nat) : Byte :=
  (B[j / 4]?.getD 0).extractLsb' (8 * (j % 4)) 8

/-- The word of four bytes, the first in the lowest lane (R52). -/
def wordOfBytes (b0 b1 b2 b3 : Byte) : Word := b3 ++ b2 ++ b1 ++ b0

/-- The byte string `b` standing in a buffer of `n` words (R52). -/
def wordsOfBytes (n : Nat) (b : Nat → Byte) : Vector Word n :=
  Vector.ofFn fun w : Fin n =>
    wordOfBytes (b (4 * w.val)) (b (4 * w.val + 1)) (b (4 * w.val + 2)) (b (4 * w.val + 3))

/-- The low word of a counter value, `c[31:0]`. -/
def lowWord (c : U64) : Word := c.extractLsb' 0 32

/-- The high word of a counter value, `c[63:32]`. -/
def highWord (c : U64) : Word := c.extractLsb' 32 32

/-- `ctr = {S[13], S[12]}` (R22). -/
def State.ctr (s : State) : U64 := s.cipher[13] ++ s.cipher[12]

/-- The CipherState INIT creates from a key and a nonce, counter 0 (R103):
`[4 constant words][8 key words][2 counter words, low word first][2 nonce words]` (R21). -/
def freshCipher (key : Vector Word 8) (nonce : Vector Word 2) : Block :=
  #v[Config.sigma[0], Config.sigma[1], Config.sigma[2], Config.sigma[3],
    key[0], key[1], key[2], key[3], key[4], key[5], key[6], key[7],
    0, 0, nonce[0], nonce[1]]

/-- `KSIN(c)`, the block input for the counter value `c` (R141). -/
def blockInput (S : Block) (c : U64) : Block :=
  #v[S[0], S[1], S[2], S[3], S[4], S[5], S[6], S[7], S[8], S[9], S[10], S[11],
    lowWord c, highWord c, S[14], S[15]]

/-- The stream position `P` (R161), exact: an integer, since `ctr = 0` with `KS_POS != 0` is a state no run
reaches (R25, log entry 10). -/
def State.streamPos (s : State) : Int :=
  if s.ksPos = 0 then 64 * (s.ctr.toNat : Int) else 64 * ((s.ctr.toNat : Int) - 1) + s.ksPos.toNat

end Sys2Proof.Machine
end

