-- ==== Sys2Proof/Machine/Flags.lean ====
section
/-! DEFINITION. STATUS and its fields (spec 10_state.md R31), and the error codes ERR holds
(60_exceptions.md R180). There are no condition codes (R42). -/

namespace Sys2Proof.Machine

/-- The code of a command error (R180); 0 is OK. -/
def CommandError.code : CommandError → BitVec 4
  | .illegalCommand => 1
  | .invalidKeyLength => 2
  | .invalidNonceLength => 3
  | .notInitialized => 4
  | .invalidLength => 5
  | .partialBlockPending => 6
  | .counterExhausted => 7

/-- The fields of STATUS once BUSY = 0 (R31): `[31:14]` 0, KS_POS `[13:8]`, ERR `[7:4]`, `[3:2]` 0, VALID
`[1]`, BUSY `[0]`. -/
def State.statusFields (s : State) : Word :=
  0#18 ++ s.ksPos ++ s.err ++ 0#2 ++ BitVec.ofBool s.valid ++ BitVec.ofBool s.busy

/-- What a STATUS read returns (R31, R207): while BUSY = 1, bit 0 is 1 and bits [31:1] are a draw. -/
def State.status (s : State) : Word :=
  if s.busy then Config.freeStatus s.draws ++ 1#1 else s.statusFields

end Sys2Proof.Machine
end

