-- ==== Sys2Proof/Machine/Ops.lean ====
section
/-! DEFINITION. The shared operations: how a command ends (spec 40_state_init.md R100, 60_exceptions.md R182;
an error is no trap, R181, and there is neither trap entry nor trap return, R188, R189), zeroising, the
counter advance (42_keystream_gen.md R144), and the register window (20_memory.md R54 to R60). -/

namespace Sys2Proof.Machine

/-! ## How a command ends -/

/-- The end of a command (R100, R205): ERR takes the code, BUSY goes to 0 and PENDING to none. -/
def State.finish (s : State) (code : BitVec 4) : State :=
  { s with err := code, busy := false, pending := none }

/-- A command that succeeds writes `ERR <- 0` (R100). -/
def State.succeed (s : State) : State := s.finish 0

/-- Raising a command error, the one shared operation (R9, R181, R182): `ERR <- code(E)` and nothing else
changes. Control stays with the host program; no pc is saved and no handler is entered (R188). -/
def State.raise (s : State) (e : CommandError) : State := s.finish e.code

/-! ## Zeroising -/

/-- KEY_IN and NONCE_IN are zeroised (R208). -/
def State.zeroiseStaging (s : State) : State :=
  { s with keyIn := zeros 8, nonceIn := zeros 2 }

/-- The CipherState is dropped: S, KS_POS and VALID go to 0 (R24, R104, R106). -/
def State.dropCipher (s : State) : State :=
  { s with cipher := zeros 16, ksPos := 0, valid := false }

/-- `K <- 0; W <- 0` (R37). -/
def State.scrubBuffers (s : State) : State :=
  { s with work := zeros 16, keystream := zeros 16 }

/-- DATA_OUT takes a block (R35). -/
def State.setDataOut (s : State) (D : Block) : State := { s with dataOut := D }

/-- `KS_POS <- p` (R163). -/
def State.setKsPos (s : State) (p : Nat) : State := { s with ksPos := BitVec.ofNat 6 p }

/-- `INIT_FAIL(E)` (R104). -/
def State.initFail (s : State) (e : CommandError) : State :=
  s.dropCipher.zeroiseStaging.raise e

/-! ## The counter -/

/-- ADVANCE on S (R144): "increment the low word; on overflow reset it to 0 and increment the high word". -/
def advanceCounter (S : Block) : Block :=
  if S[12] ≠ 0xFFFFFFFF then S.set 12 (S[12] + 1)
  else (S.set 12 0).set 13 (S[13] + 1)

/-- ADVANCE (R144). -/
def State.advance (s : State) : State := { s with cipher := advanceCounter s.cipher }

/-! ## The register window -/

/-- The window's offset of a bus address (R50, R51): none for an address outside the window, which "does not
reach this hardware at all". Host statements carry the offset (R89). -/
def windowOffset (addr : Nat) : Option Offset :=
  if Config.baseAddr ≤ addr ∧ addr ≤ Config.baseAddr + 0xFF then
    some (BitVec.ofNat 8 (addr - Config.baseAddr))
  else none

/-- The address map (R54). The offsets 0x38 to 0x3F and 0xC0 to 0xFF are unmapped. -/
def regAt (off : Offset) : Option Reg :=
  let o := off.toNat
  if o < 0x04 then some .cmd
  else if o < 0x08 then some .status
  else if o < 0x0C then some .ctrLo
  else if o < 0x10 then some .ctrHi
  else if h : o < 0x30 then some (.keyIn ⟨(o - 0x10) / 4, by omega⟩)
  else if h : o < 0x38 then some (.nonceIn ⟨(o - 0x30) / 4, by omega⟩)
  else if o < 0x40 then none
  else if h : o < 0x80 then some (.dataIn ⟨(o - 0x40) / 4, by omega⟩)
  else if h : o < 0xC0 then some (.dataOut ⟨(o - 0x80) / 4, by omega⟩)
  else none

/-- The checks of one access (R55, R58, R59), in R55's order: BadWidth, Misaligned, Unmapped, BusyAccess.
`allowed r` says which register may be accessed while BUSY = 1. -/
def portCheck (s : State) (off : Offset) (n : Nat) (allowed : Reg → Bool) : Except BusReason Reg :=
  if n ≠ 4 then .error .badWidth
  else if off.toNat % 4 ≠ 0 then .error .misaligned
  else match regAt off with
    | none => .error .unmapped
    | some r => if s.busy && !allowed r then .error .busyAccess else .ok r

/-- What a read of a register returns (R58): a write-only register reads 0 (R60). -/
def State.readReg (s : State) : Reg → Word
  | .cmd => 0
  | .status => s.status
  | .ctrLo => s.cipher[12]
  | .ctrHi => s.cipher[13]
  | .keyIn _ => 0
  | .nonceIn _ => 0
  | .dataIn i => s.dataIn[i]
  | .dataOut i => s.dataOut[i]

/-- `PENDING <- v; BUSY <- 1` (R33, R59); the number of host accesses before the completion is a draw
(R205). -/
def State.startCommand (s : State) (v : Word) : State :=
  { s with pending := some v, busy := true, wait := Config.freeLatency s.draws }

/-- What a write to a register does (R59): a read-only register ignores it (R60). -/
def State.writeReg (s : State) (v : Word) : Reg → State
  | .cmd => s.startCommand v
  | .status => s
  | .ctrLo => s
  | .ctrHi => s
  | .keyIn k => { s with keyIn := s.keyIn.set k v }
  | .nonceIn j => { s with nonceIn := s.nonceIn.set j v }
  | .dataIn i => { s with dataIn := s.dataIn.set i v }
  | .dataOut _ => s

/-- `MemRead(off, n)` (R58): while BUSY = 1 only STATUS may be read (R206). -/
def memRead (s : State) (off : Offset) (n : Nat) : Except BusReason Word :=
  match portCheck s off n (· == .status) with
  | .error r => .error r
  | .ok r => .ok (s.readReg r)

/-- `MemWrite(off, n, v)` (R59): while BUSY = 1 every write is a bus error (R206). -/
def memWrite (s : State) (off : Offset) (n : Nat) (v : Word) : Except BusReason State :=
  match portCheck s off n (fun _ => false) with
  | .error r => .error r
  | .ok r => .ok (s.writeReg v r)

end Sys2Proof.Machine
end

