-- ==== Sys2Proof/Machine/StateRegister.lean ====
section
/-! DEFINITION. The state register commands NOP, INIT and CLEAR (spec 40_state_init.md). -/

namespace Sys2Proof.Machine

/-- NOP (R101): `ERR <- 0`. -/
def execNop (s : State) : Host.Outcome State Fault Refusal :=
  .next s.succeed

/-- INIT (R103): the key check comes first (R183); a failed INIT zeroises and invalidates (R104). -/
def execInit (klen nlen : Nat) (s : State) : Host.Outcome State Fault Refusal :=
  if klen ≠ 32 then .next (s.initFail .invalidKeyLength)
  else if nlen ≠ 8 then .next (s.initFail .invalidNonceLength)
  else
    .next ({ s with cipher := freshCipher s.keyIn s.nonceIn, ksPos := 0, valid := true
           }.zeroiseStaging.succeed)

/-- CLEAR (R106): the CipherState is dropped and every buffer zeroised. -/
def execClear (s : State) : Host.Outcome State Fault Refusal :=
  .next ({ s.dropCipher.zeroiseStaging with dataIn := zeros 16, dataOut := zeros 16 }.succeed)

end Sys2Proof.Machine
end

