-- ==== Sys2Proof/Machine/Transform.lean ====
section
/-! DEFINITION. The block transform (spec 41_block_transform.md R120 to R127) and TRANSFORM (R130). -/

namespace Sys2Proof.Machine

/-- `rotl(v, n)`, the left rotation of a word, for `0 < n < 32` (00_scope.md R8). -/
def rotl (v : Word) (n : Nat) : Word := (v <<< n) ||| (v >>> (32 - n))

/-- The quarter-round QR (R122), all additions modulo 2^32. -/
def quarterRound (a b c d : Word) : Word × Word × Word × Word :=
  let a := a + b
  let d := rotl (d ^^^ a) 16
  let c := c + d
  let b := rotl (b ^^^ c) 12
  let a := a + b
  let d := rotl (d ^^^ a) 8
  let c := c + d
  let b := rotl (b ^^^ c) 7
  (a, b, c, d)

/-- The four indices one quarter-round works on. -/
abbrev Group := Fin 16 × Fin 16 × Fin 16 × Fin 16

/-- `QR_on(W, (i, j, k, l))` (R122). -/
def qrOn (W : Block) : Group → Block
  | (i, j, k, l) =>
    let r := quarterRound W[i] W[j] W[k] W[l]
    (((W.set i r.1).set j r.2.1).set k r.2.2.1).set l r.2.2.2

/-- The index groups of the column round (R123). -/
def columnGroups : List Group := [(0, 4, 8, 12), (1, 5, 9, 13), (2, 6, 10, 14), (3, 7, 11, 15)]

/-- The index groups of the diagonal round (R124). -/
def diagonalGroups : List Group := [(0, 5, 10, 15), (1, 6, 11, 12), (2, 7, 8, 13), (3, 4, 9, 14)]

/-- The column round (R123). -/
def columnRound (W : Block) : Block := columnGroups.foldl qrOn W

/-- The diagonal round (R124). -/
def diagonalRound (W : Block) : Block := diagonalGroups.foldl qrOn W

/-- A double-round: the column round, then the diagonal round (R125). -/
def doubleRound (W : Block) : Block := diagonalRound (columnRound W)

/-- `n` double-rounds in sequence. -/
def doubleRounds : Nat → Block → Block
  | 0, W => W
  | n + 1, W => doubleRounds n (doubleRound W)

/-- `permute(x)`: 10 double-rounds on a copy of the input (R126). -/
def permute (x : Block) : Block := doubleRounds 10 x

/-- `transform(x)`: the permutation with the feed-forward `result[i] = working[i] + initial[i]` (R127). -/
def transform (x : Block) : Block :=
  let W := permute x
  Vector.ofFn fun i => W[i] + x[i]

/-- TRANSFORM (R130): DATA_OUT takes `transform(DATA_IN)`. VALID is not needed. -/
def execTransform (s : State) : Host.Outcome State Fault Refusal :=
  .next ({ s.setDataOut (transform s.dataIn) with work := zeros 16 }.succeed)

end Sys2Proof.Machine
end

