-- ==== Sys2Proof/Machine/Keystream.lean ====
section
/-! DEFINITION. Keystream generation (spec 42_keystream_gen.md) and KSBLOCK (R149). -/

namespace Sys2Proof.Machine

/-- `KSB(c) = transform(KSIN(c))` (R142). -/
def keystreamBlock (S : Block) (c : U64) : Block := transform (blockInput S c)

/-- `KS(n)`, byte `n mod 64` of block `n div 64` (R143). R143 ranges over all `n >= 0`, but R142's blocks have u64
counter values: for `n >= 2^70` the block number is taken modulo 2^64. DESIGN CHOICE, unsafe for those `n`
alone, which are never delivered (log entry 22). -/
def keystreamByte (S : Block) (n : Nat) : Byte :=
  byteOf (keystreamBlock S (BitVec.ofNat 64 (n / 64))) (n % 64)

/-- The largest counter value, `2^64 - 1`: the counter must not wrap past it (R145). -/
def maxCounter : Nat := 2 ^ 64 - 1

/-- KSBLOCK (R149), its errors in the order of R183: the raw block `ctr` into DATA_OUT, then ADVANCE. -/
def execKsblock (s : State) : Host.Outcome State Fault Refusal :=
  if s.valid = false then .next (s.raise .notInitialized)
  else if s.ksPos ≠ 0 then .next (s.raise .partialBlockPending)
  else if s.ctr.toNat = maxCounter then .next (s.raise .counterExhausted)
  else
    .next (s.setDataOut (keystreamBlock s.cipher s.ctr)).advance.scrubBuffers.succeed

end Sys2Proof.Machine
end

