-- ==== Sys2Proof/Machine/Streamer.lean ====
section
/-! DEFINITION. The XOR streamer: APPLY (spec 43_xor_streamer.md R160 to R165). -/

namespace Sys2Proof.Machine

/-- `b0`, the block that holds the stream position (R163): `c` if KS_POS = 0, else `c - 1`. Exact (log entry
10). -/
def State.firstBlock (s : State) : Int :=
  if s.ksPos = 0 then (s.ctr.toNat : Int) else (s.ctr.toNat : Int) - 1

/-- `c2 = b0 + ceil((p + LEN) / 64)`, the counter after the chunk (R163), exact. -/
def State.counterAfter (s : State) (len : Nat) : Int :=
  s.firstBlock + ((s.ksPos.toNat + len + 63) / 64 : Nat)

/-- `KSB(b0 + j)`, regenerated from S and not stored (R162, R163); "at most two blocks", `j` 0 or 1. -/
def State.streamBlock (s : State) (j : Nat) : Block :=
  keystreamBlock s.cipher (BitVec.ofInt 64 (s.firstBlock + j))

/-- `out[i]` of R163, with `q = p + i`: a data byte XORed with its keystream byte, or 0 from LEN on (R164).
`K0` and `K1` are the blocks `b0` and `b0 + 1`. -/
def chunkByte (data K0 K1 : Block) (p len i : Nat) : Byte :=
  if i < len then
    byteOf data i ^^^ byteOf (if (p + i) / 64 = 0 then K0 else K1) ((p + i) % 64)
  else 0

/-- The 64 output bytes of a chunk (R163). -/
def State.chunkOutput (s : State) (len : Nat) : Block :=
  wordsOfBytes 16 (chunkByte s.dataIn (s.streamBlock 0) (s.streamBlock 1) s.ksPos.toNat len)

/-- The counter moves on when the chunk reaches a block not yet generated (R163: `if c2 = c + 1: ADVANCE`). -/
def State.advanceTo (s : State) (c2 : Int) : State :=
  if c2 = (s.ctr.toNat : Int) + 1 then s.advance else s

/-- APPLY (R163), its errors in the order of R183; all or nothing (R182). -/
def execApply (len : Nat) (s : State) : Host.Outcome State Fault Refusal :=
  if 64 < len then .next (s.raise .invalidLength)
  else if s.valid = false then .next (s.raise .notInitialized)
  else if s.counterAfter len > maxCounter then .next (s.raise .counterExhausted)
  else
    let t := (s.setDataOut (s.chunkOutput len)).advanceTo (s.counterAfter len)
    .next (t.setKsPos ((s.ksPos.toNat + len) % 64)).scrubBuffers.succeed

end Sys2Proof.Machine
end

