-- ==== Sys2Proof/Machine/Dispatch.lean ====
section
/-! DEFINITION. One arm per command (spec 30_encoding.md R83, R84: "dispatch to the rule of OP"). -/

namespace Sys2Proof.Machine

def exec (i : Instr) (s : State) : Host.Outcome State Fault Refusal :=
  match i with
  | .nop => Sys2Proof.Machine.execNop s
  | .init klen nlen => Sys2Proof.Machine.execInit klen nlen s
  | .apply len => Sys2Proof.Machine.execApply len s
  | .ksblock => Sys2Proof.Machine.execKsblock s
  | .transform => Sys2Proof.Machine.execTransform s
  | .clear => Sys2Proof.Machine.execClear s

end Sys2Proof.Machine
end

