-- ==== Sys2Proof/Machine/Agents.lean ====
section
/-! DEFINITION. The steps of the two agents (spec 00_scope.md R10): the ENGINE's completion of the command in
flight (70_reset_and_hazards.md R205), and one statement of the HOST's program (30_encoding.md R89). -/

namespace Sys2Proof.Machine

/-! ## The ENGINE -/

/-- The ENGINE completion step (R205): decode PENDING (R84) and apply the command's whole effect; an illegal
word completes with IllegalCommand and changes nothing else (R84, R86). -/
def engineStep (s : State) : Host.Outcome State Fault Refusal :=
  match s.pending with
  | none => .fault .engineWithoutCommand
  | some w =>
    match decode w with
    | .error _ => .next (s.raise .illegalCommand)
    | .ok i => exec i s

/-- The host's next statement, if it has one. -/
def State.nextStmt (s : State) : Option HostStmt := s.program[s.pc]?

/-- Whether the ENGINE moves next (R205): a command is in flight, and the drawn number of host accesses has
passed, or the host has no next statement (a completion "is not delayed forever"; log entry 3). -/
def State.engineMoves (s : State) : Bool :=
  s.busy && (s.wait == 0 || s.nextStmt.isNone)

/-! ## The HOST -/

/-- The reset event (R200): every piece of hardware state takes its value of R43 and FAULTS is kept. The
host's program goes on with its next statement (log entry 5). -/
def State.resetEvent (s : State) : State :=
  { State.reset with
    faults := s.faults, program := s.program, pc := s.pc + 1, responses := s.responses
    turn := s.turn, draws := s.draws }

/-- Whether an access begins a turn: a turn runs "from a STATUS read with BUSY = 0" (R195). -/
def State.beginsTurn (s : State) : Access → Bool
  | .read off n => !s.busy && off == 0x04 && n == 4
  | .readExpect off _ => !s.busy && off == 0x04
  | .branchNonzero off _ _ => !s.busy && off == 0x04
  | .write _ _ _ => false

/-- Whether a master may make an access: it has the turn, or nobody has, or it begins one (R195, log entry
11). -/
def State.admits (s : State) (a : Access) (master : Nat) : Bool :=
  s.turn == none || s.turn == some master || s.beginsTurn a

/-- One host access is counted before it takes effect: the turn is its master's, and its number selects the
free values it draws (log entries 2, 3). -/
def State.countAccess (s : State) (master : Nat) : State :=
  { s with turn := some master, wait := s.wait - 1, draws := s.draws + 1 }

/-- The host receives an answer and goes on at `pc`. -/
def State.respond (s : State) (r : Response) (pc : Nat) : State :=
  { s with responses := s.responses ++ [r], pc := pc }

/-- A bus error (R57): no hardware state changes, the host receives an error response, the record
`BusError(reason, pc)` goes into FAULTS, and `pc <- pc + 1` (R9, R58). -/
def State.busError (s : State) (r : BusReason) : State :=
  { s with faults := s.faults.insert ⟨r, s.pc⟩ }.respond (.error r) (s.pc + 1)

/-- A host read; `next v` is where the host goes on after the value `v`. -/
def State.hostRead (s : State) (off : Offset) (n : Nat) (next : Word → Nat) : State :=
  match memRead s off n with
  | .error r => s.busError r
  | .ok v => s.respond (.data v) (next v)

/-- A host write. -/
def State.hostWrite (s : State) (off : Offset) (n : Nat) (v : Word) : State :=
  match memWrite s off n v with
  | .error r => s.busError r
  | .ok t => t.respond .accepted (s.pc + 1)

/-- Where BNZ goes on (R89). -/
def branchTarget (pc : Nat) (mask : Word) (target : Nat) (v : Word) : Nat :=
  if v &&& mask ≠ 0 then target else pc + 1

/-- One access of the host program (R89). -/
def State.perform (s : State) : Access → State
  | .read off n => s.hostRead off n (fun _ => s.pc + 1)
  | .write off n v => s.hostWrite off n v
  | .readExpect off _ => s.hostRead off 4 (fun _ => s.pc + 1)
  | .branchNonzero off mask target => s.hostRead off 4 (branchTarget s.pc mask target)

/-- A step of the HOST: RESET is the platform's event and belongs to no master (R200); an access of a master
out of its turn is refused by name (R195). -/
def hostStep (s : State) : HostStmt → Host.Outcome State Fault Refusal
  | .reset => .next s.resetEvent
  | .access a master =>
    if s.admits a master then .next ((s.countAccess master).perform a) else .refused .multiMaster

end Sys2Proof.Machine
end

