-- ==== Sys2Proof/Machine/Step.lean ====
section
/-! DEFINITION. The step: "one host bus read or write, or one completion of a command by the engine"
(spec 00_scope.md R2, R10). -/

namespace Sys2Proof.Machine

/-- One step. With no command in flight and no next statement nothing happens: "The hardware does nothing
until the host writes CMD" (R201, log entry 4). -/
def step (s : State) : Host.Outcome State Fault Refusal :=
  if s.engineMoves then engineStep s
  else match s.nextStmt with
    | some h => hostStep s h
    | none => .next s

/-- `s` with a command word in flight whose completion is the very next step: what an accepted write to CMD
leaves (R33), with no host access left to wait for (R205: "any finite number, including 0"). -/
def State.withFetchWord (s : State) (nbits w : Nat) : State :=
  { s with pending := some (BitVec.ofNat 32 (w % 2 ^ nbits)), busy := true, wait := 0 }

end Sys2Proof.Machine
end

