-- ==== Sys2Proof/Machine/HostSyntax.lean ====
section
/-! DEFINITION. The host program syntax of spec 30_encoding.md R89 to R92: labels, the base statements, and
the command and data pseudo-instructions with their expansions. `assemble` turns a listing into the
program of statements the machine runs. Notation only (92 D29); the step does not use it. -/

namespace Sys2Proof.Machine

/-- One line of a listing. -/
inductive HostLine where
  /-- `name:` (R89). -/
  | label (name : String)
  /-- `WR off, v` (R89). -/
  | wr (off : Offset) (v : Word)
  /-- `RD off` (R89). -/
  | rd (off : Offset)
  /-- `RD off == v` (R89). -/
  | rdExpect (off : Offset) (v : Word)
  /-- `BNZ off, mask, label` (R89). -/
  | bnz (off : Offset) (mask : Word) (name : String)
  /-- `RESET` (R200). -/
  | reset
  /-- `NOP` (R90). -/
  | nop
  /-- `INIT`, the canonical word 0x00008201 (R90). -/
  | init
  /-- `INIT k=K, n=N`, K and N from 0 to 255 (R90). -/
  | initLengths (k n : BitVec 8)
  /-- `APPLY L`, L from 0 to 255 (R90). -/
  | apply (l : BitVec 8)
  /-- `KSBLOCK` (R90). -/
  | ksblock
  /-- `TRANSFORM` (R90). -/
  | transform
  /-- `CLEAR` (R90). -/
  | clear
  /-- `CMDW w`, any raw word (R90). -/
  | cmdw (w : Word)
  /-- `LOADKEY k0, ..., k7` (R91). -/
  | loadKey (k : Vector Word 8)
  /-- `LOADKEYB b0 ... b31` (R91). -/
  | loadKeyBytes (b : Vector Byte 32)
  /-- `LOADNONCE n0, n1` (R91). -/
  | loadNonce (n0 n1 : Word)
  /-- `LOADDATA d0, ..., d15` (R91). -/
  | loadData (d : Block)
  /-- `READOUT` (R91). -/
  | readOut
  /-- `RDSTATUS` (R91). -/
  | rdStatus
  /-- `POLL` (R92). -/
  | poll
deriving DecidableEq, Repr

/-- `BNZ 0x04, 0x00000001, L_poll` at index `pc`, its own label (R92). -/
def pollAt (pc : Nat) : Access := .branchNonzero 0x04 0x00000001 pc

/-- A command pseudo-instruction: a write to CMD followed by POLL (R90). -/
def issueAt (pc : Nat) (w : Word) : List Access := [.wr 0x00 w, pollAt (pc + 1)]

/-- `WR base+4i, vi` for each word of a list (R91). -/
def writeWords (base : Nat) (ws : List Word) : List Access :=
  ws.mapIdx fun i v => .wr (BitVec.ofNat 8 (base + 4 * i)) v

/-- `ki = b[4i] + 2^8 b[4i+1] + 2^16 b[4i+2] + 2^24 b[4i+3]` (R91). -/
def keyWordsOfBytes (b : Vector Byte 32) : List Word :=
  (List.range 8).map fun i =>
    let byte := fun j => (b[4 * i + j]?.getD 0).setWidth 32
    byte 0 + (byte 1 <<< 8) + (byte 2 <<< 16) + (byte 3 <<< 24)

/-- The accesses a line other than RESET stands for, the first at index `pc`. `labels` gives each label's
index; a label with none has no expansion. -/
def HostLine.accesses (labels : String → Option Nat) (pc : Nat) : HostLine → Option (List Access)
  | .label _ => some []
  | .wr off v => some [.wr off v]
  | .rd off => some [.rd off]
  | .rdExpect off v => some [.readExpect off v]
  | .bnz off mask name => (labels name).map fun target => [.branchNonzero off mask target]
  | .reset => some []
  | .nop => some (issueAt pc 0x00000000)
  | .init => some (issueAt pc 0x00008201)
  | .initLengths k n =>
    some (issueAt pc (0x00000001 ||| (k.setWidth 32 <<< 4) ||| (n.setWidth 32 <<< 12)))
  | .apply l => some (issueAt pc (0x00000002 ||| (l.setWidth 32 <<< 4)))
  | .ksblock => some (issueAt pc 0x00000003)
  | .transform => some (issueAt pc 0x00000004)
  | .clear => some (issueAt pc 0x00000005)
  | .cmdw w => some (issueAt pc w)
  | .loadKey k => some (writeWords 0x10 k.toList)
  | .loadKeyBytes b => some (writeWords 0x10 (keyWordsOfBytes b))
  | .loadNonce n0 n1 => some (writeWords 0x30 [n0, n1])
  | .loadData d => some (writeWords 0x40 d.toList)
  | .readOut => some ((List.range 16).map fun i => .rd (BitVec.ofNat 8 (0x80 + 4 * i)))
  | .rdStatus => some [.rd 0x04]
  | .poll => some [pollAt pc]

/-- The statements of a line, all issued by one master. -/
def HostLine.stmts (labels : String → Option Nat) (master pc : Nat) : HostLine → Option (List HostStmt)
  | .reset => some [.reset]
  | l => (l.accesses labels pc).map fun as => as.map (.access · master)

/-- How many statements a line takes; it does not depend on the labels. -/
def HostLine.size (l : HostLine) : Nat :=
  ((l.stmts (fun _ => some 0) 0 0).getD []).length

/-- The index of a label in a listing that begins at `pc` (its first line of that name). -/
def labelIndex (pc : Nat) (name : String) : List HostLine → Option Nat
  | [] => none
  | l :: ls => if l = .label name then some pc else labelIndex (pc + l.size) name ls

/-- The lines one after the other, the first statement at index `pc`. -/
def assembleFrom (labels : String → Option Nat) (master pc : Nat) :
    List HostLine → Option (List HostStmt)
  | [] => some []
  | l :: ls =>
    match l.stmts labels master pc, assembleFrom labels master (pc + l.size) ls with
    | some a, some b => some (a ++ b)
    | _, _ => none

/-- The program of a listing that one master runs; none where a label is missing. -/
def assemble (lines : List HostLine) (master : Nat := 0) : Option (List HostStmt) :=
  assembleFrom (fun name => labelIndex 0 name lines) master 0 lines

end Sys2Proof.Machine
end

