-- ==== Sys2Proof/Safety.lean ====
section
/-! DEFINITION. What a safe and a finished run are, what a run shows (spec 70_reset_and_hazards.md R213), and
the invariant of the reachable states (10_state.md R23 to R26, R33, R37; 93 U9). -/

namespace Sys2Proof.Machine

/-- Every claim about a run takes "FAULTS is empty" as a premise (R39). -/
def State.faultFree (s : State) : Bool := s.faults.isEmpty

/-- The end of a run (R213): no next statement, BUSY = 0, FAULTS empty. -/
def State.finished (s : State) : Bool := s.nextStmt.isNone && !s.busy && s.faultFree

/-- The values the host read, in order (R213). -/
def State.readValues (s : State) : List Word :=
  s.responses.filterMap fun
    | .data v => some v
    | .accepted => none
    | .error _ => none

/-- What a finished run shows (R213). -/
structure Observed where
  values : List Word
  status : Word
  ctrLo : Word
  ctrHi : Word
  dataOut : Block
deriving DecidableEq, Repr

/-- The observed result: the values read, and the final STATUS, CTR_LO, CTR_HI and DATA_OUT (R213). -/
def State.observed (s : State) : Observed :=
  ⟨s.readValues, s.status, s.readReg .ctrLo, s.readReg .ctrHi, s.dataOut⟩

/-- The hardware state (the rows of R20), without FAULTS, the host's program and answers, and the model's
counters. -/
structure Hardware where
  cipher : Block
  valid : Bool
  ksPos : BitVec 6
  err : BitVec 4
  busy : Bool
  pending : Option Word
  keyIn : Vector Word 8
  nonceIn : Vector Word 2
  dataIn : Block
  dataOut : Block
  work : Block
  keystream : Block
deriving DecidableEq, Repr

/-- The hardware part of a state. -/
def State.hardware (s : State) : Hardware where
  cipher := s.cipher
  valid := s.valid
  ksPos := s.ksPos
  err := s.err
  busy := s.busy
  pending := s.pending
  keyIn := s.keyIn
  nonceIn := s.nonceIn
  dataIn := s.dataIn
  dataOut := s.dataOut
  work := s.work
  keystream := s.keystream

/-- The first four words of S are the constant words (R23). -/
def holdsSigma (S : Block) : Prop :=
  S[0] = Config.sigma[0] ∧ S[1] = Config.sigma[1] ∧ S[2] = Config.sigma[2] ∧ S[3] = Config.sigma[3]

/-- The invariant that every reachable state meets. -/
structure State.Inv (s : State) : Prop where
  /-- A command word is in flight exactly while BUSY = 1 (R33). -/
  pending_iff_busy : s.pending.isSome = s.busy
  /-- While VALID = 0, S and KS_POS are 0 (R24). -/
  dropped_is_zero : s.valid = false → s.cipher = zeros 16 ∧ s.ksPos = 0
  /-- While VALID = 1, `S[0..3] = SIGMA` (R23). -/
  valid_holds_sigma : s.valid = true → holdsSigma s.cipher
  /-- A partly used block exists only after some block has been generated (R25). -/
  partial_after_block : s.ksPos ≠ 0 → 1 ≤ s.ctr.toNat
  /-- ERR is one of the codes 0 to 7 (R180, 93 U9). -/
  err_le_seven : s.err.toNat ≤ 7
  /-- W and K are zero when a step ends (R37). -/
  buffers_are_zero : s.work = zeros 16 ∧ s.keystream = zeros 16

/-! ## The events of a step, in the terms claims use -/

/-- The next step is the ENGINE's completion of the command `i` (R205). -/
def State.completes (s : State) (i : Instr) : Prop :=
  s.engineMoves = true ∧ ∃ w, s.pending = some w ∧ decode w = .ok i

/-- The next step is the platform's reset event (R200). -/
def State.resets (s : State) : Prop :=
  s.engineMoves = false ∧ s.nextStmt = some .reset

/-- The next step is an access of the host that its master may make (R195). -/
def State.hostAccesses (s : State) (a : Access) (master : Nat) : Prop :=
  s.engineMoves = false ∧ s.nextStmt = some (.access a master) ∧ s.admits a master = true

/-- Two states that agree on everything but `S[0..11]`, `S[14..15]` and the staging registers, which no bus
access reads (R27, R28, R29). -/
def sameButSecrets (s t : State) : Prop :=
  t = { s with cipher := t.cipher, keyIn := t.keyIn, nonceIn := t.nonceIn } ∧
    t.cipher[12] = s.cipher[12] ∧ t.cipher[13] = s.cipher[13]

/-! ## Sequences of commands -/

/-- The first `len` bytes of a buffer, in stream order (R52). -/
def firstBytes (len : Nat) (B : Block) : List Byte := (List.range len).map (byteOf B)

/-- A byte string XORed with the keystream from position `P` on (R143, R160). -/
def xorKeystream (S : Block) (P : Nat) (bytes : List Byte) : List Byte :=
  bytes.mapIdx fun i b => b ^^^ keystreamByte S (P + i)

/-- The data of a list of chunks, one after the other; a chunk is its length and what DATA_IN holds. -/
def chunkData (chunks : List (Nat × Block)) : List Byte :=
  chunks.flatMap fun c => firstBytes c.1 c.2

/-- Successful APPLYs over a list of chunks (R170): each chunk's data is in DATA_IN when its command runs, and
its output is read from DATA_OUT after it. None as soon as one raises an error. -/
def State.applyChunks (s : State) : List (Nat × Block) → Option (List Byte × State)
  | [] => some ([], s)
  | (len, D) :: chunks =>
    match exec (.apply len) { s with dataIn := D } with
    | .next t =>
      if t.err = 0 then
        match t.applyChunks chunks with
        | some (out, u) => some (firstBytes len t.dataOut ++ out, u)
        | none => none
      else none
    | .fault _ => none
    | .refused _ => none

/-- `n` successful KSBLOCKs, one after the other (R147). -/
def State.ksblocks (s : State) : Nat → Option State
  | 0 => some s
  | n + 1 =>
    match exec .ksblock s with
    | .next t => if t.err = 0 then t.ksblocks n else none
    | .fault _ => none
    | .refused _ => none

end Sys2Proof.Machine
end

