-- ==== Sys2Proof/Certificates/Slice0/Obligations.lean ====
section
/-! DEFINITION. The statements for the provers: what the numbered rules of spec/ say the machine does. Free
values (`Config.sigma`, `Config.freeStatus`, `Config.freeLatency`) and the model's counters `wait` and
`draws` are universally quantified throughout. -/

open Sys2Proof Sys2Proof.Machine

/-! ## Encoding -/

/-- The canonical words of 30_encoding.md section 3 decode to their commands, and the encoder gives them. -/
def Obligations.CanonicalWordsDecode : Prop :=
  decode 0x00008201 = .ok (.init 32 8) ∧ decode 0x00000002 = .ok (.apply 0) ∧
  decode 0x00000012 = .ok (.apply 1) ∧ decode 0x000000A2 = .ok (.apply 10) ∧
  decode 0x00000362 = .ok (.apply 54) ∧ decode 0x000003C2 = .ok (.apply 60) ∧
  decode 0x000003F2 = .ok (.apply 63) ∧ decode 0x00000402 = .ok (.apply 64) ∧
  decode 0x00000412 = .ok (.apply 65) ∧ decode 0x00000003 = .ok .ksblock ∧
  decode 0x00000004 = .ok .transform ∧ decode 0x00000005 = .ok .clear ∧
  decode 0x00000000 = .ok .nop ∧ encode (.init 32 8) = 0x00008201 ∧
  encode .ksblock = 0x00000003 ∧ encode .transform = 0x00000004 ∧ encode .clear = 0x00000005 ∧
  encode .nop = 0x00000000 ∧
  (∀ L < 256, encode (.apply L) = 0x00000002 ||| (BitVec.ofNat 32 L <<< 4))

/-- Decode after encode: no operand bit of any well-formed command is dropped. -/
def Obligations.DecodeOfEncodeIsTheInstruction : Prop :=
  ∀ i : Instr, i.WellFormed → decode (encode i) = .ok i

/-- Encode after decode: an accepted word has one meaning, and it is the word of that meaning. -/
def Obligations.EncodeOfDecodeIsTheWord : Prop :=
  ∀ (w : Word) (i : Instr), decode w = .ok i → i.WellFormed ∧ encode i = w

/-- The match and mask table (after R85): the decoder accepts a word as a mnemonic exactly when `(w & mask) = match`; a word that matches no
row is illegal. -/
def Obligations.DecoderIsMatchAndMask : Prop :=
  ∀ w : Word,
    (decode w = .ok .nop ↔ w &&& 0xFFFFFFFF = 0x00000000) ∧
    ((∃ klen nlen, decode w = .ok (.init klen nlen)) ↔ w &&& 0xFFF0000F = 0x00000001) ∧
    ((∃ len, decode w = .ok (.apply len)) ↔ w &&& 0xFFFFF00F = 0x00000002) ∧
    (decode w = .ok .ksblock ↔ w &&& 0xFFFFFFFF = 0x00000003) ∧
    (decode w = .ok .transform ↔ w &&& 0xFFFFFFFF = 0x00000004) ∧
    (decode w = .ok .clear ↔ w &&& 0xFFFFFFFF = 0x00000005) ∧
    ((∀ r ∈ opcodeRows, r.accepts w = false) ↔ ∃ e, decode w = .error e)

/-- R84: at the ENGINE's step the fields of PENDING (as numbers) are checked in the rule's order; an illegal
word changes nothing but ERR (and ends the command), a legal one is dispatched with its fields. -/
def Obligations.EngineDecodesThePendingWord : Prop :=
  ∀ (s : State) (w : Word), s.engineMoves = true → s.pending = some w →
    let OP := w.toNat % 16
    let FA := w.toNat / 16 % 256
    let FB := w.toNat / 4096 % 256
    let RSV := w.toNat / 1048576
    let illegal : Host.Outcome State Fault Refusal :=
      .next { s with err := 1, busy := false, pending := none }
    step s =
      if RSV ≠ 0 then illegal
      else if OP = 0 then if FA ≠ 0 ∨ FB ≠ 0 then illegal else exec .nop s
      else if OP = 3 then if FA ≠ 0 ∨ FB ≠ 0 then illegal else exec .ksblock s
      else if OP = 4 then if FA ≠ 0 ∨ FB ≠ 0 then illegal else exec .transform s
      else if OP = 5 then if FA ≠ 0 ∨ FB ≠ 0 then illegal else exec .clear s
      else if OP = 1 then exec (.init FA FB) s
      else if OP = 2 then if FB ≠ 0 then illegal else exec (.apply FA) s
      else illegal

/-- R90: each command pseudo-instruction is one write of its word to CMD followed by POLL, whose label is its
own index (R92). -/
def Obligations.PseudoInstructionsWriteTheirWords : Prop :=
  ∀ (labels : String → Option Nat) (pc : Nat),
    let issue := fun (w : Word) =>
      some [Access.write 0x00 4 w, Access.branchNonzero 0x04 0x00000001 (pc + 1)]
    HostLine.accesses labels pc .nop = issue 0x00000000 ∧
    HostLine.accesses labels pc .init = issue 0x00008201 ∧
    (∀ k n : BitVec 8, HostLine.accesses labels pc (.initLengths k n) =
      issue (BitVec.ofNat 32 (1 + 16 * k.toNat + 4096 * n.toNat))) ∧
    (∀ l : BitVec 8, HostLine.accesses labels pc (.apply l) =
      issue (BitVec.ofNat 32 (2 + 16 * l.toNat))) ∧
    HostLine.accesses labels pc .ksblock = issue 0x00000003 ∧
    HostLine.accesses labels pc .transform = issue 0x00000004 ∧
    HostLine.accesses labels pc .clear = issue 0x00000005 ∧
    (∀ w : Word, HostLine.accesses labels pc (.cmdw w) = issue w)

/-! ## The step -/

/-- A step of the ENGINE is `exec` of the decoded command at that state, and nothing else; also for a word
placed by `withFetchWord`. -/
def Obligations.StepRunsTheDecodedInstruction : Prop :=
  (∀ (s : State) (i : Instr), s.completes i → step s = exec i s) ∧
  (∀ (s : State) (w : Nat) (i : Instr), decodeTableWord 32 w = some i →
    step (s.withFetchWord 32 w) = exec i (s.withFetchWord 32 w))

/-- R33: an accepted write to CMD makes BUSY 1 and PENDING the word, no host access changes either (or any other
hardware state) while BUSY = 1, and the completion makes BUSY 0 and PENDING none, with the command's whole
effect in that one step. How many host accesses lie between is the free value `Config.freeLatency`; the
statement holds for every one. -/
def Obligations.CommandIsBusyUntilItsCompletion : Prop :=
  (∀ (s : State) (m : Nat) (v : Word), s.busy = false → s.hostAccesses (.write 0x00 4 v) m →
    ∃ t, step s = .next t ∧ t.busy = true ∧ t.pending = some v ∧
      t.hardware = { s.hardware with busy := true, pending := some v }) ∧
  (∀ (s : State) (a : Access) (m : Nat), s.busy = true → s.hostAccesses a m →
    ∃ t, step s = .next t ∧ t.busy = true ∧ t.pending = s.pending ∧ t.hardware = s.hardware) ∧
  (∀ (s : State) (w : Word), s.engineMoves = true → s.pending = some w →
    ∃ t, step s = .next t ∧ t.busy = false ∧ t.pending = none ∧
      ∀ i, decode w = .ok i → exec i s = .next t)

/-- A pending completion is not delayed forever (after R205). That the draw is `Config.freeLatency`, counted in
`wait`, is the model's choice (log entry 3). However many host accesses were drawn to come first,
BUSY is 0 again after at most that many and one more steps of any run that goes on. -/
def Obligations.PendingCommandCompletes : Prop :=
  ∀ (s t : State), s.pending.isSome = true → s.busy = true →
    Host.Core.run core (s.wait + 1) s = .next t →
    ∃ n u, n ≤ s.wait + 1 ∧ Host.Core.run core n s = .next u ∧ u.busy = false

/-- With no command in flight and no statement of the host nothing happens. (That a state with no
statement left takes idle steps is the model's choice, log entry 4.) -/
def Obligations.IdleStepChangesNothing : Prop :=
  ∀ s : State, s.busy = false → s.nextStmt = none → step s = .next s

/-- An access of a master out of its turn is refused by name (after R195; the turn rule's details are the
model's choice, log entry 11): every write, and every read that is not a 4-byte STATUS read with BUSY = 0.
Such a STATUS read, by `RD`, `RD ==` or BNZ (POLL), begins a turn and is never refused; nor is any access of
the master whose turn it is, or of the first master. -/
def Obligations.InterleavedMastersAreRefused : Prop :=
  (∀ (s : State) (m m' : Nat), s.engineMoves = false → s.turn = some m → m ≠ m' →
    let asks := fun a : Access => s.nextStmt = some (.access a m')
    (∀ off n v, asks (.write off n v) → step s = .refused .multiMaster) ∧
    (∀ off n, asks (.read off n) → (n ≠ 4 ∨ off ≠ 0x04 ∨ s.busy = true) →
      step s = .refused .multiMaster) ∧
    (∀ off v, asks (.readExpect off v) → (off ≠ 0x04 ∨ s.busy = true) →
      step s = .refused .multiMaster) ∧
    (∀ off mask l, asks (.branchNonzero off mask l) → (off ≠ 0x04 ∨ s.busy = true) →
      step s = .refused .multiMaster) ∧
    (∀ a, asks a → s.busy = false →
      (a = .read 0x04 4 ∨ (∃ v, a = .readExpect 0x04 v) ∨ ∃ mask l, a = .branchNonzero 0x04 mask l) →
      ∃ t, step s = .next t ∧ t.turn = some m')) ∧
  (∀ (s : State) (a : Access) (m : Nat), s.engineMoves = false → s.nextStmt = some (.access a m) →
    (s.turn = none ∨ s.turn = some m) → ∃ t, step s = .next t ∧ t.turn = some m)

/-! ## The commands -/

/-- R101: NOP is the word 0x00000000 alone; it sets ERR to 0 (and ends), from every state. -/
def Obligations.NopOnlyClearsErr : Prop :=
  (∀ w : Word, decode w = .ok .nop ↔ w = 0x00000000) ∧
  ∀ s : State, exec .nop s =
    .next { s with err := 0, busy := false, pending := none }

/-- R103: INIT with KLEN = 32 and NLEN = 8 creates the CipherState from SIGMA and the staging registers,
counter 0, and zeroises the staging registers; nothing else changes. Any other lengths fail with the
key's error first. -/
def Obligations.InitCreatesTheCipherState : Prop :=
  (∀ (w : Word) (klen nlen : Nat), decode w = .ok (.init klen nlen) ↔
    w &&& 0xFFF0000F = 0x00000001 ∧ klen = w.toNat / 16 % 256 ∧ nlen = w.toNat / 4096 % 256) ∧
  (∀ s : State, exec (.init 32 8) s =
    .next { s with
      cipher := #v[Config.sigma[0], Config.sigma[1], Config.sigma[2], Config.sigma[3],
        s.keyIn[0], s.keyIn[1], s.keyIn[2], s.keyIn[3],
        s.keyIn[4], s.keyIn[5], s.keyIn[6], s.keyIn[7], 0, 0, s.nonceIn[0], s.nonceIn[1]]
      ksPos := 0, valid := true, keyIn := Vector.replicate 8 0, nonceIn := Vector.replicate 2 0
      err := 0, busy := false, pending := none }) ∧
  (∀ (s : State) (klen nlen : Nat), klen ≠ 32 →
    exec (.init klen nlen) s = .next (s.initFail .invalidKeyLength)) ∧
  (∀ (s : State) (nlen : Nat), nlen ≠ 8 →
    exec (.init 32 nlen) s = .next (s.initFail .invalidNonceLength))

/-- R104: a failed INIT zeroises S, KS_POS and the staging registers, sets VALID to 0 and ERR to its code;
DATA_IN, DATA_OUT and everything else are unchanged. -/
def Obligations.FailedInitInvalidates : Prop :=
  ∀ (s : State) (klen nlen : Nat), (klen ≠ 32 ∨ nlen ≠ 8) →
    exec (.init klen nlen) s =
      .next { s with
        cipher := Vector.replicate 16 0, ksPos := 0, valid := false
        keyIn := Vector.replicate 8 0, nonceIn := Vector.replicate 2 0
        err := if klen ≠ 32 then 2 else 3
        busy := false, pending := none }

/-- R106: CLEAR is the word 0x00000005 alone; it zeroises S, KS_POS, VALID, the staging registers, DATA_IN and
DATA_OUT, from every state, and STATUS, CTR_LO and CTR_HI read 0 afterwards. -/
def Obligations.ClearZeroisesEverything : Prop :=
  (∀ w : Word, decode w = .ok .clear ↔ w = 0x00000005) ∧
  ∀ s : State, ∃ t, exec .clear s = .next t ∧
    t = { s with
      cipher := Vector.replicate 16 0, ksPos := 0, valid := false
      keyIn := Vector.replicate 8 0, nonceIn := Vector.replicate 2 0
      dataIn := Vector.replicate 16 0, dataOut := Vector.replicate 16 0
      err := 0, busy := false, pending := none } ∧
    memRead t 0x04 4 = .ok 0 ∧ memRead t 0x08 4 = .ok 0 ∧ memRead t 0x0C 4 = .ok 0

/-- R130: TRANSFORM is the word 0x00000004 alone; DATA_OUT takes the transform of DATA_IN and W is zero, from
every state, VALID or not; zero data gives zero, and the published input gives the published output. -/
def Obligations.TransformWritesDataOut : Prop :=
  (∀ w : Word, decode w = .ok .transform ↔ w = 0x00000004) ∧
  (∀ s : State, exec .transform s =
    .next { s with
      dataOut := transform s.dataIn, work := Vector.replicate 16 0
      err := 0, busy := false, pending := none }) ∧
  transform (Vector.replicate 16 0) = Vector.replicate 16 0 ∧
  transform #v[0x61707865, 0x3320646e, 0x79622d32, 0x6b206574, 0x03020100, 0x07060504, 0x0b0a0908,
      0x0f0e0d0c, 0x13121110, 0x17161514, 0x1b1a1918, 0x1f1e1d1c, 0x00000001, 0x09000000, 0x4a000000,
      0x00000000] =
    #v[0xe4e7f110, 0x15593bd1, 0x1fdd0f50, 0xc47120a3, 0xc7f4d1c7, 0x0368c033, 0x9aaa2204, 0x4e6cd4c3,
      0x466482d2, 0x09aa9f07, 0x05d7c214, 0xa2028bd9, 0xd19c12b5, 0xb94e16de, 0xe883d0cb, 0x4e3c50a2]

/-- R149: KSBLOCK is the word 0x00000003 alone; its errors in order, and its effect: DATA_OUT takes block
`ctr`, S keeps everything but the counter, which becomes `ctr + 1`, and K and W are zero. -/
def Obligations.KsblockDeliversTheCounterBlock : Prop :=
  (∀ w : Word, decode w = .ok .ksblock ↔ w = 0x00000003) ∧
  (∀ s : State, s.valid = false → exec .ksblock s =
    .next { s with err := 4, busy := false, pending := none }) ∧
  (∀ s : State, s.valid = true → s.ksPos ≠ 0 → exec .ksblock s =
    .next { s with err := 6, busy := false, pending := none }) ∧
  (∀ s : State, s.valid = true → s.ksPos = 0 → s.ctr.toNat = 2 ^ 64 - 1 → exec .ksblock s =
    .next { s with err := 7, busy := false, pending := none }) ∧
  (∀ s : State, s.valid = true → s.ksPos = 0 → s.ctr.toNat < 2 ^ 64 - 1 → exec .ksblock s =
    .next { s with
      dataOut := transform (blockInput s.cipher s.ctr)
      cipher := blockInput s.cipher (BitVec.ofNat 64 (s.ctr.toNat + 1))
      work := Vector.replicate 16 0, keystream := Vector.replicate 16 0
      err := 0, busy := false, pending := none })

/-- R163: APPLY's words, its errors in order, and its effect at the stream position `P`: output byte `i` is
data byte `i` XORed with keystream byte `P + i` for `i < LEN` and 0 from LEN on; the counter becomes
`ceil((P + LEN) / 64)` and KS_POS `(P + LEN) mod 64`; nothing else changes. A `P` exists in every state
but those with `ctr = 0` and KS_POS != 0, which `StepKeepsTheInvariant` rules out (log entry 10). -/
def Obligations.ApplyXorsTheChunk : Prop :=
  (∀ (w : Word) (len : Nat), decode w = .ok (.apply len) ↔
    w &&& 0xFFFFF00F = 0x00000002 ∧ len = w.toNat / 16 % 256) ∧
  (∀ (s : State) (len : Nat), 64 < len → exec (.apply len) s =
    .next { s with err := 5, busy := false, pending := none }) ∧
  (∀ (s : State) (len : Nat), len ≤ 64 → s.valid = false → exec (.apply len) s =
    .next { s with err := 4, busy := false, pending := none }) ∧
  (∀ (s : State) (len P : Nat), len ≤ 64 → s.valid = true → s.streamPos = P →
    2 ^ 64 - 1 < (P + len + 63) / 64 → exec (.apply len) s =
      .next { s with err := 7, busy := false, pending := none }) ∧
  (∀ (s : State) (len P : Nat), len ≤ 64 → s.valid = true → s.streamPos = P →
    (P + len + 63) / 64 ≤ 2 ^ 64 - 1 →
    ∃ D : Block,
      exec (.apply len) s = .next { s with
        dataOut := D
        cipher := blockInput s.cipher (BitVec.ofNat 64 ((P + len + 63) / 64))
        ksPos := BitVec.ofNat 6 ((P + len) % 64)
        work := Vector.replicate 16 0, keystream := Vector.replicate 16 0
        err := 0, busy := false, pending := none } ∧
      ∀ i < 64, byteOf D i =
        if i < len then byteOf s.dataIn i ^^^ keystreamByte s.cipher (P + i) else 0)

/-- R183: when several errors apply to one command, the first of its row is reported, IllegalCommand before all
others. (The counter's limit is stated at the stream position `P`, as in `ApplyXorsTheChunk`.) -/
def Obligations.FirstErrorOfTheRowIsReported : Prop :=
  (∀ (s t : State) (klen nlen : Nat), exec (.init klen nlen) s = .next t →
    t.err = if klen ≠ 32 then 2 else if nlen ≠ 8 then 3 else 0) ∧
  (∀ (s t : State) (len : Nat), exec (.apply len) s = .next t →
    (64 < len → t.err = 5) ∧ (len ≤ 64 → s.valid = false → t.err = 4) ∧
    (∀ P : Nat, len ≤ 64 → s.valid = true → s.streamPos = P →
      t.err = if 2 ^ 64 - 1 < (P + len + 63) / 64 then 7 else 0)) ∧
  (∀ (s t : State), exec .ksblock s = .next t →
    t.err = if s.valid = false then 4 else if s.ksPos ≠ 0 then 6
      else if s.ctr = 0xFFFFFFFFFFFFFFFF then 7 else 0) ∧
  (∀ (s t : State) (i : Instr), i = .nop ∨ i = .transform ∨ i = .clear → exec i s = .next t →
    t.err = 0) ∧
  (∀ (s t : State) (w : Word), s.engineMoves = true → s.pending = some w → step s = .next t →
    (t.err = 1 ↔ ∃ e, decode w = .error e))

/-- All or nothing (after R182): a command that raises an error writes ERR and changes nothing else (but that it ends); a failed INIT
alone has the effects of R104. Afterwards the next command is accepted. -/
def Obligations.FailedCommandWritesOnlyErr : Prop :=
  ∀ (s t : State), s.engineMoves = true → step s = .next t → t.err ≠ 0 →
    ((∀ klen nlen, ¬ s.completes (.init klen nlen)) →
      t = { s with err := t.err, busy := false, pending := none }) ∧
    ((∃ klen nlen, s.completes (.init klen nlen)) →
      t = { s with
        cipher := Vector.replicate 16 0, ksPos := 0, valid := false
        keyIn := Vector.replicate 8 0, nonceIn := Vector.replicate 2 0
        err := t.err, busy := false, pending := none } ∧ (t.err = 2 ∨ t.err = 3)) ∧
    ∀ v, ∃ u, memWrite t 0x00 4 v = .ok u ∧ u.busy = true ∧ u.pending = some v

/-! ## The block transform -/

/-- The model's `rotl` is the left rotation of 00_scope.md section 4: bit `i` of the result is bit `i - n` of
the word, modulo 32. -/
def Obligations.RotlRotatesLeft : Prop :=
  ∀ (v : Word) (n i : Nat), 0 < n → n < 32 → i < 32 →
    (rotl v n).getLsbD i = v.getLsbD ((i + (32 - n)) % 32)

/-- R122: the quarter-round, written with the library's rotation, with its examples, and `QR_on`, which writes
the four results to its four words and leaves the others alone. -/
def Obligations.QuarterRoundIsTheRule : Prop :=
  (∀ a b c d : Word, quarterRound a b c d =
    let a1 := a + b
    let d1 := (d ^^^ a1).rotateLeft 16
    let c1 := c + d1
    let b1 := (b ^^^ c1).rotateLeft 12
    let a2 := a1 + b1
    let d2 := (d1 ^^^ a2).rotateLeft 8
    let c2 := c1 + d2
    let b2 := (b1 ^^^ c2).rotateLeft 7
    (a2, b2, c2, d2)) ∧
  quarterRound 0 0 0 0 = (0, 0, 0, 0) ∧
  quarterRound 0x11111111 0x01020304 0x9b8d6f43 0x01234567 =
    (0xea2a92f4, 0xcb1cf8ce, 0x4581472e, 0x5881c4bb) ∧
  ∀ (W : Block) (i j k l : Fin 16), [i, j, k, l].Nodup →
    let V := qrOn W (i, j, k, l)
    (V[i], V[j], V[k], V[l]) = quarterRound W[i] W[j] W[k] W[l] ∧
    ∀ n : Fin 16, n ∉ [i, j, k, l] → V[n] = W[n]

/-- R126, R127: the permutation is 10 times the eight quarter-rounds of the rule, and the transform adds the
input to it word by word. -/
def Obligations.TransformIsTenDoubleRounds : Prop :=
  ∀ (x : Block) (i : Fin 16),
    let round := fun W : Block =>
      qrOn (qrOn (qrOn (qrOn (qrOn (qrOn (qrOn (qrOn W (0, 4, 8, 12)) (1, 5, 9, 13)) (2, 6, 10, 14))
        (3, 7, 11, 15)) (0, 5, 10, 15)) (1, 6, 11, 12)) (2, 7, 8, 13)) (3, 4, 9, 14)
    permute x = round^[10] x ∧ (transform x)[i] = (permute x)[i] + x[i]

/-- Within one round the quarter-rounds may be computed in any order. -/
def Obligations.QuarterRoundsOfARoundCommute : Prop :=
  ∀ (W : Block) (gs : List Group),
    (gs.Perm columnGroups → gs.foldl qrOn W = columnRound W) ∧
    (gs.Perm diagonalGroups → gs.foldl qrOn W = diagonalRound W)

/-! ## The counter and the keystream -/

/-- `KSIN(c)` lays the counter between key and nonce, low word first; for `c = ctr` it is S itself. -/
def Obligations.BlockInputIsInOrder : Prop :=
  (∀ (S : Block) (c : U64), blockInput S c =
    #v[S[0], S[1], S[2], S[3], S[4], S[5], S[6], S[7], S[8], S[9], S[10], S[11],
      BitVec.ofNat 32 (c.toNat % 2 ^ 32), BitVec.ofNat 32 (c.toNat / 2 ^ 32), S[14], S[15]]) ∧
  ∀ s : State, blockInput s.cipher s.ctr = s.cipher

/-- A keystream block depends only on SIGMA, key, nonce and its counter value, not on the counter words that S
holds; keystream byte `n` is byte `n mod 64` of block `n div 64`. (From `n = 2^70` on, where no counter value
is `n div 64`, the model takes it modulo 2^64: its choice, log entry 22.) -/
def Obligations.KeystreamIgnoresTheHeldCounter : Prop :=
  ∀ (S : Block) (lo hi : Word),
    (∀ c, keystreamBlock ((S.set 12 lo).set 13 hi) c = keystreamBlock S c) ∧
    ∀ n, keystreamByte ((S.set 12 lo).set 13 hi) n =
      byteOf (transform (blockInput S (BitVec.ofNat 64 (n / 64)))) (n % 64)

/-- R144: ADVANCE increments the low word and carries into the high word; as a u64 it is `ctr + 1`, exactly;
no other state changes. -/
def Obligations.AdvanceIncrementsTheCounter : Prop :=
  ∀ s : State, s.ctr.toNat < 2 ^ 64 - 1 →
    s.advance.ctr.toNat = s.ctr.toNat + 1 ∧
    (s.cipher[12] ≠ 0xFFFFFFFF →
      s.advance = { s with cipher := s.cipher.set 12 (s.cipher[12] + 1) }) ∧
    (s.cipher[12] = 0xFFFFFFFF →
      s.advance = { s with cipher := (s.cipher.set 12 0).set 13 (s.cipher[13] + 1) })

/-- At `ctr = 2^64 - 1` every command that needs a new block raises CounterExhausted and writes only ERR; what
the residue of the last block still holds is served. -/
def Obligations.ExhaustedCounterDeliversNoNewBlock : Prop :=
  ∀ s : State, s.valid = true → s.ctr.toNat = 2 ^ 64 - 1 →
    (s.ksPos = 0 → exec .ksblock s =
      .next { s with err := 7, busy := false, pending := none }) ∧
    (s.ksPos = 0 → ∀ len, 1 ≤ len → len ≤ 64 → exec (.apply len) s =
      .next { s with err := 7, busy := false, pending := none }) ∧
    (s.ksPos ≠ 0 → ∀ len ≤ 64, 64 < s.ksPos.toNat + len → exec (.apply len) s =
      .next { s with err := 7, busy := false, pending := none }) ∧
    (s.ksPos ≠ 0 → ∀ len, s.ksPos.toNat + len ≤ 64 →
      ∃ t, exec (.apply len) s = .next t ∧ t.err = 0 ∧ t.cipher = s.cipher)

/-- `n` KSBLOCKs move the counter from `ctr` to `ctr + n`; after exactly 2^32 blocks from counter 0 the low
word is 0 and the high word 1. -/
def Obligations.KsblocksCarryIntoTheHighWord : Prop :=
  (∀ (s : State) (n : Nat), s.valid = true → s.ksPos = 0 → s.ctr.toNat + n ≤ 2 ^ 64 - 1 →
    ∃ t, s.ksblocks n = some t ∧ t.valid = true ∧ t.ksPos = 0 ∧ t.ctr.toNat = s.ctr.toNat + n) ∧
  (∀ (s : State), s.valid = true → s.ksPos = 0 → s.ctr = 0 →
    ∃ t, s.ksblocks (2 ^ 32) = some t ∧ t.cipher[12] = 0 ∧ t.cipher[13] = 1)

/-! ## The stream -/

/-- The pair (ctr, KS_POS) encodes the stream position: `ctr = ceil(P / 64)` and `KS_POS = P mod 64`, in every
state that meets the invariant; after a successful INIT it is 0. -/
def Obligations.CounterAndOffsetEncodeThePosition : Prop :=
  (∀ s : State, s.Inv → ∃ P : Nat, s.streamPos = P ∧ s.ctr.toNat = (P + 63) / 64 ∧
    s.ksPos.toNat = P % 64) ∧
  (∀ s t : State, exec (.init 32 8) s = .next t → t.streamPos = 0)

/-- APPLY of 0 bytes on a valid state writes DATA_OUT to zero and moves neither counter nor KS_POS, even when
the counter is exhausted; with VALID = 0 it raises NotInitialized. -/
def Obligations.ApplyZeroMovesNothing : Prop :=
  (∀ s : State, s.valid = true → exec (.apply 0) s =
    .next { s with
      dataOut := Vector.replicate 16 0
      work := Vector.replicate 16 0, keystream := Vector.replicate 16 0
      err := 0, busy := false, pending := none }) ∧
  (∀ s : State, s.valid = false → exec (.apply 0) s =
    .next { s with err := 4, busy := false, pending := none })

/-- One successful APPLY moves the stream position by exactly LEN, and the counter by 0 or 1; from KS_POS = 0
a chunk of 1 to 64 bytes advances it by exactly 1. -/
def Obligations.ApplyMovesThePositionByLen : Prop :=
  ∀ (s t : State) (len : Nat), exec (.apply len) s = .next t → t.err = 0 →
    t.streamPos = s.streamPos + len ∧
    (t.ctr.toNat = s.ctr.toNat ∨ t.ctr.toNat = s.ctr.toNat + 1) ∧
    (s.ksPos = 0 → 1 ≤ len → t.ctr.toNat = s.ctr.toNat + 1)

/-- Chunk transparency: over any list of chunks of at most 64 bytes, from any stream position `P` short of
exhaustion, every APPLY succeeds, the outputs joined are the joined data XORed with the keystream from
`P` on, and the final counter and KS_POS are those of `P + ΣLEN`: nothing depends on where the chunk
boundaries fall. -/
def Obligations.ChunkTransparency : Prop :=
  ∀ (s : State) (chunks : List (Nat × Block)) (P : Nat), s.valid = true → s.streamPos = P →
    (∀ c ∈ chunks, c.1 ≤ 64) →
    (P + (chunks.map Prod.fst).sum + 63) / 64 ≤ 2 ^ 64 - 1 →
    ∃ t, s.applyChunks chunks = some (xorKeystream s.cipher P (chunkData chunks), t) ∧
      t.streamPos = P + (chunks.map Prod.fst).sum ∧
      t.cipher = blockInput s.cipher (BitVec.ofNat 64 ((P + (chunks.map Prod.fst).sum + 63) / 64)) ∧
      t.ksPos = BitVec.ofNat 6 ((P + (chunks.map Prod.fst).sum) % 64) ∧
      t.valid = true

/-- Decryption is the same command: a device with the same S, VALID and KS_POS whose DATA_IN holds the output
of a successful APPLY gives the data back and ends with the same S and KS_POS. -/
def Obligations.ApplyTwiceGivesTheDataBack : Prop :=
  ∀ (s t r : State) (len : Nat), exec (.apply len) s = .next t → t.err = 0 →
    r.cipher = s.cipher → r.valid = s.valid → r.ksPos = s.ksPos → r.dataIn = t.dataOut →
    ∃ u, exec (.apply len) r = .next u ∧ u.err = 0 ∧ u.cipher = t.cipher ∧ u.ksPos = t.ksPos ∧
      ∀ i < len, byteOf u.dataOut i = byteOf s.dataIn i

/-- Corrupted input raises no error: each output byte is wrong by exactly what its input byte is wrong by, and
everything else is as without the corruption. -/
def Obligations.CorruptionStaysInItsByte : Prop :=
  ∀ (s t : State) (D : Block) (len : Nat), exec (.apply len) s = .next t → t.err = 0 →
    ∃ E, exec (.apply len) { s with dataIn := D } = .next { t with dataIn := D, dataOut := E } ∧
      ∀ i < 64, byteOf E i ^^^ byteOf t.dataOut i =
        if i < len then byteOf D i ^^^ byteOf s.dataIn i else 0

/-- XORing word-wise and byte-wise agree: a full chunk at KS_POS = 0 is the word-wise XOR of DATA_IN with
keystream block `ctr`. -/
def Obligations.FullChunkIsWordwiseXor : Prop :=
  ∀ s : State, s.valid = true → s.ksPos = 0 → s.ctr.toNat < 2 ^ 64 - 1 →
    ∃ t, exec (.apply 64) s = .next t ∧
      ∀ i : Fin 16, t.dataOut[i] = s.dataIn[i] ^^^ (keystreamBlock s.cipher s.ctr)[i]

/-- With VALID = 1, KS_POS = 0 and DATA_IN zero, KSBLOCK and APPLY 64 have the same outcome, exhaustion
included. (With KS_POS != 0 KSBLOCK is refused where APPLY 64 serves.) -/
def Obligations.KsblockIsApplyOfZeros : Prop :=
  ∀ s : State, s.valid = true → s.ksPos = 0 → s.dataIn = Vector.replicate 16 0 →
    exec .ksblock s = exec (.apply 64) s

/-! ## The register window -/

/-- R52: byte `j` of a buffer of `n` words is byte lane `j mod 4` of word `j div 4`, and a byte string stands
in a buffer when each word is the little-endian sum of its four bytes; reading it back gives the string. -/
def Obligations.BuffersAreLittleEndian : Prop :=
  ∀ n : Nat,
    (∀ (B : Vector Word n) (j : Nat) (h : j / 4 < n),
      (byteOf B j).toNat = B[j / 4].toNat / 2 ^ (8 * (j % 4)) % 256) ∧
    (∀ (b : Nat → Byte) (w : Fin n), (wordsOfBytes n b)[w].toNat =
      (b (4 * w)).toNat + 2 ^ 8 * (b (4 * w + 1)).toNat + 2 ^ 16 * (b (4 * w + 2)).toNat +
        2 ^ 24 * (b (4 * w + 3)).toNat) ∧
    (∀ (b : Nat → Byte), ∀ j < 4 * n, byteOf (wordsOfBytes n b) j = b j) ∧
    (∀ B : Vector Word n, wordsOfBytes n (byteOf B) = B)

/-- R58: a host read, with the rule's checks in order and its offsets; every read and every write, with or
without an error, moves the host on by 1 (BNZ's label aside, R89). -/
def Obligations.MemReadIsTheRule : Prop :=
  (∀ (s : State) (a : Access) (m : Nat), s.hostAccesses a m →
    (∀ off mask l, a ≠ .branchNonzero off mask l) → ∃ t, step s = .next t ∧ t.pc = s.pc + 1) ∧
  ∀ (s : State) (off : Offset) (n : Nat),
    let o := off.toNat
    memRead s off n =
      if n ≠ 4 then .error .badWidth
      else if o % 4 ≠ 0 then .error .misaligned
      else if (0x38 ≤ o ∧ o ≤ 0x3F) ∨ 0xC0 ≤ o then .error .unmapped
      else if s.busy = true ∧ o ≠ 0x04 then .error .busyAccess
      else if o = 0x00 then .ok 0
      else if o = 0x04 then .ok s.status
      else if o = 0x08 then .ok s.cipher[12]
      else if o = 0x0C then .ok s.cipher[13]
      else if o < 0x38 then .ok 0
      else if o < 0x80 then .ok (s.dataIn[(o - 0x40) / 4]?.getD 0)
      else .ok (s.dataOut[(o - 0x80) / 4]?.getD 0)

/-- R59: a host write, with the rule's checks in order and its offsets. (`k`, how many host accesses come before
the completion, is R205's draw; nothing is said of it.) -/
def Obligations.MemWriteIsTheRule : Prop :=
  ∀ (s : State) (off : Offset) (n : Nat) (v : Word),
    let o := off.toNat
    ∃ k : Nat, memWrite s off n v =
      if n ≠ 4 then .error .badWidth
      else if o % 4 ≠ 0 then .error .misaligned
      else if (0x38 ≤ o ∧ o ≤ 0x3F) ∨ 0xC0 ≤ o then .error .unmapped
      else if s.busy = true then .error .busyAccess
      else if o = 0x00 then
        .ok { s with pending := some v, busy := true, wait := k }
      else if o < 0x10 then .ok s
      else if o < 0x30 then .ok { s with keyIn := s.keyIn.setIfInBounds ((o - 0x10) / 4) v }
      else if o < 0x38 then .ok { s with nonceIn := s.nonceIn.setIfInBounds ((o - 0x30) / 4) v }
      else if o < 0x80 then .ok { s with dataIn := s.dataIn.setIfInBounds ((o - 0x40) / 4) v }
      else .ok s

/-- R60: a write to STATUS, CTR_LO, CTR_HI or DATA_OUT is accepted and has no effect; a read of CMD, KEY_IN or
NONCE_IN returns 0. -/
def Obligations.ReadOnlyIgnoresAndWriteOnlyReadsZero : Prop :=
  ∀ (s : State) (off : Offset) (v : Word), s.busy = false → off.toNat % 4 = 0 →
    ((off = 0x04 ∨ off = 0x08 ∨ off = 0x0C ∨ (0x80 ≤ off.toNat ∧ off.toNat < 0xC0)) →
      memWrite s off 4 v = .ok s) ∧
    ((off = 0x00 ∨ (0x10 ≤ off.toNat ∧ off.toNat < 0x38)) → memRead s off 4 = .ok 0)

/-- R31: STATUS ignores writes, and its fields: BUSY [0], VALID [1], 0 in [3:2], ERR [7:4], KS_POS [13:8] and
0 in [31:14] once BUSY = 0; while BUSY = 1 bit 0 is 1 and nothing is said of the rest. -/
def Obligations.StatusHasItsFields : Prop :=
  ∀ s : State,
    (s.busy = false →
      (∀ v, memWrite s 0x04 4 v = .ok s) ∧
      ∃ w, memRead s 0x04 4 = .ok w ∧ w.getLsbD 0 = false ∧ w.getLsbD 1 = s.valid ∧
        w.extractLsb' 2 2 = 0 ∧ w.extractLsb' 4 4 = s.err ∧ w.extractLsb' 8 6 = s.ksPos ∧
        w.extractLsb' 14 18 = 0) ∧
    (s.busy = true →
      ∃ w, memRead s 0x04 4 = .ok w ∧ w.getLsbD 0 = true)

/-- While BUSY = 1 the only access is a 4-byte read of STATUS; every other access of the map is a bus
error with reason BusyAccess. What the read returns above bit 0 is the free value, whatever the state holds; that
it is `Config.freeStatus` of the access's number is the model's form (log entry 2). -/
def Obligations.BusyAllowsOnlyStatusReads : Prop :=
  ∀ (s : State) (off : Offset) (v : Word), s.busy = true → off.toNat % 4 = 0 →
    (off.toNat < 0x38 ∨ (0x40 ≤ off.toNat ∧ off.toNat < 0xC0)) →
    (off ≠ 0x04 → memRead s off 4 = .error .busyAccess) ∧
    (off = 0x04 → memRead s off 4 = .ok (Config.freeStatus s.draws ++ 1#1)) ∧
    memWrite s off 4 v = .error .busyAccess

/-- R57: a bus error changes no hardware state (ERR included), answers with an error and no data, and adds its
record `BusError(reason, pc)` to FAULTS, for every kind of access. -/
def Obligations.BusErrorIsOnlyRecorded : Prop :=
  ∀ (s : State) (a : Access) (m : Nat) (r : BusReason), s.hostAccesses a m →
    (match a with
      | .read off n => memRead s off n = .error r
      | .write off n v => memWrite s off n v = .error r
      | .readExpect off _ => memRead s off 4 = .error r
      | .branchNonzero off _ _ => memRead s off 4 = .error r) →
    ∃ t, step s = .next t ∧ t.hardware = s.hardware ∧ t.program = s.program ∧
      t.responses = s.responses ++ [.error r] ∧
      (∀ f, f ∈ t.faults ↔ f = ⟨r, s.pc⟩ ∨ f ∈ s.faults)

/-- A host read (`RD`, `RD ==`, BNZ) changes no hardware state and no record, and moves the host to where the rules say: the next
statement, or BNZ's label when a masked bit is set. That `RD off == v` acts as `RD off`, whatever it reads, is
the model's reading (log entry 16). That a BNZ whose read is a bus error falls through is the
model's choice (log entry 6). -/
def Obligations.ReadsHaveNoSideEffects : Prop :=
  (∀ (s : State) (off : Offset) (n m : Nat) (v : Word), s.hostAccesses (.read off n) m →
    memRead (s.countAccess m) off n = .ok v →
    ∃ t, step s = .next t ∧ t.hardware = s.hardware ∧ t.faults = s.faults ∧ t.pc = s.pc + 1 ∧
      t.responses = s.responses ++ [.data v]) ∧
  (∀ (s : State) (off : Offset) (m : Nat) (expected v : Word), s.hostAccesses (.readExpect off expected) m →
    memRead (s.countAccess m) off 4 = .ok v →
    ∃ t, step s = .next t ∧ t.hardware = s.hardware ∧ t.faults = s.faults ∧ t.pc = s.pc + 1 ∧
      t.responses = s.responses ++ [.data v]) ∧
  (∀ (s : State) (off : Offset) (mask : Word) (l m : Nat) (v : Word),
    s.hostAccesses (.branchNonzero off mask l) m → memRead (s.countAccess m) off 4 = .ok v →
    ∃ t, step s = .next t ∧ t.hardware = s.hardware ∧ t.faults = s.faults ∧
      t.pc = (if v &&& mask ≠ 0 then l else s.pc + 1) ∧ t.responses = s.responses ++ [.data v]) ∧
  (∀ (s : State) (off : Offset) (mask : Word) (l m : Nat) (r : BusReason),
    s.hostAccesses (.branchNonzero off mask l) m → memRead s off 4 = .error r →
    ∃ t, step s = .next t ∧ t.hardware = s.hardware ∧ t.pc = s.pc + 1)

/-- A write to DATA_IN stores its word in that one register and changes nothing else at all; the next read of
the register returns the word, and every other offset reads as before. -/
def Obligations.DataInReadsBackWhatWasWritten : Prop :=
  ∀ (s t : State) (off : Offset) (v : Word), 0x40 ≤ off.toNat → off.toNat < 0x80 →
    memWrite s off 4 v = .ok t →
    t = { s with dataIn := s.dataIn.setIfInBounds ((off.toNat - 0x40) / 4) v } ∧
    memRead t off 4 = .ok v ∧
    ∀ off' : Offset, off' ≠ off → ∀ n, memRead t off' n = memRead s off' n

/-- The window is the 256 offsets from BASE_ADDR, and an address outside it has no offset. (Host statements carry
offsets, so an address outside the window is no access of the model: its choice, log entry 12.) -/
def Obligations.WindowHas256Offsets : Prop :=
  (∀ off : Offset, windowOffset (Config.baseAddr + off.toNat) = some off) ∧
  (∀ addr : Nat, addr < Config.baseAddr ∨ Config.baseAddr + 0x100 ≤ addr → windowOffset addr = none)

/-- No bus access reads key material: two states that agree on all but S[0..11], S[14..15] and the staging
registers take the same host steps and give the host the same answers, and agree so afterwards. -/
def Obligations.HostNeverReadsKeyMaterial : Prop :=
  ∀ s t : State, sameButSecrets s t → s.engineMoves = false →
    (∀ s', step s = .next s' → ∃ t', step t = .next t' ∧ sameButSecrets s' t') ∧
    (∀ r, step s = .refused r → step t = .refused r)

/-! ## Reset and the whole machine -/

/-- R43, R200: after reset every piece of hardware state is 0 (PENDING none), the views read 0, a command in
flight is abandoned, and FAULTS is kept. -/
def Obligations.ResetZeroisesTheHardware : Prop :=
  let zeroed : Hardware :=
    { cipher := Vector.replicate 16 0, valid := false, ksPos := 0, err := 0, busy := false,
      pending := none, keyIn := Vector.replicate 8 0, nonceIn := Vector.replicate 2 0,
      dataIn := Vector.replicate 16 0, dataOut := Vector.replicate 16 0,
      work := Vector.replicate 16 0, keystream := Vector.replicate 16 0 }
  State.reset.hardware = zeroed ∧ State.reset.faults = [] ∧
  ∀ s : State, s.resets → ∃ t, step s = .next t ∧ t.hardware = zeroed ∧ t.faults = s.faults ∧
    memRead t 0x04 4 = .ok 0 ∧ memRead t 0x08 4 = .ok 0 ∧ memRead t 0x0C 4 = .ok 0

/-- The invariant holds after reset. -/
def Obligations.ResetMeetsTheInvariant : Prop := State.reset.Inv

/-- Every step keeps the invariant. -/
def Obligations.StepKeepsTheInvariant : Prop :=
  ∀ s t : State, s.Inv → step s = .next t → t.Inv

/-- In a state that meets the invariant the machine never faults: a step goes on, or refuses an interleaved
master by name. -/
def Obligations.NoFaultUnderTheInvariant : Prop :=
  ∀ s : State, s.Inv → (∃ t, step s = .next t) ∨ step s = .refused .multiMaster

/-- R24: while VALID = 0, S and KS_POS are 0: every step that sets VALID to 0 zeroises them, and they stay 0
until VALID is 1. -/
def Obligations.DroppedStateIsZeroised : Prop :=
  State.reset.cipher = Vector.replicate 16 0 ∧ State.reset.ksPos = 0 ∧
  (∀ s t : State, step s = .next t → s.valid = true → t.valid = false →
    t.cipher = Vector.replicate 16 0 ∧ t.ksPos = 0) ∧
  (∀ s t : State, step s = .next t → s.valid = false → s.cipher = Vector.replicate 16 0 →
    s.ksPos = 0 → t.valid = false → t.cipher = Vector.replicate 16 0 ∧ t.ksPos = 0)

/-- R23: while VALID = 1 the constant words are SIGMA, and a step other than INIT, CLEAR or reset keeps VALID,
the key words and the nonce words and never decreases the counter. -/
def Obligations.KeyAndNonceAreImmutable : Prop :=
  ∀ s t : State, s.Inv → s.valid = true → step s = .next t →
    holdsSigma s.cipher ∧
    ((∀ klen nlen, ¬ s.completes (.init klen nlen)) → ¬ s.completes .clear → ¬ s.resets →
      t.valid = true ∧ s.ctr.toNat ≤ t.ctr.toNat ∧
      ∀ i : Fin 16, i ≠ 12 → i ≠ 13 → t.cipher[i] = s.cipher[i])

/-- R26: VALID goes to 1 on a successful INIT alone, and to 0 on CLEAR, a failed INIT and reset alone. -/
def Obligations.ValidFollowsTheLifecycle : Prop :=
  (∀ s t : State, step s = .next t → s.valid = false → t.valid = true → s.completes (.init 32 8)) ∧
  (∀ s t : State, step s = .next t → s.valid = true → t.valid = false →
    s.completes .clear ∨ s.resets ∨
      ∃ klen nlen, s.completes (.init klen nlen) ∧ (klen ≠ 32 ∨ nlen ≠ 8)) ∧
  (∀ s t : State, step s = .next t → s.completes (.init 32 8) → t.valid = true) ∧
  (∀ s t : State, step s = .next t → s.completes .clear ∨ s.resets → t.valid = false) ∧
  (∀ (s t : State) (klen nlen : Nat), step s = .next t → s.completes (.init klen nlen) →
    (klen ≠ 32 ∨ nlen ≠ 8) → t.valid = false)

/-- Only a successful APPLY, KSBLOCK or TRANSFORM, CLEAR and reset write DATA_OUT. -/
def Obligations.DataOutHasFewWriters : Prop :=
  ∀ s t : State, step s = .next t → t.dataOut ≠ s.dataOut →
    s.resets ∨ s.completes .clear ∨
    (t.err = 0 ∧ ((∃ len, s.completes (.apply len)) ∨ s.completes .ksblock ∨ s.completes .transform))

/-- Only a host write to its offset, CLEAR and reset write a word of DATA_IN. -/
def Obligations.DataInHasFewWriters : Prop :=
  ∀ (s t : State) (i : Fin 16), step s = .next t → t.dataIn[i] ≠ s.dataIn[i] →
    s.resets ∨ s.completes .clear ∨
    ∃ m v, s.hostAccesses (.write (BitVec.ofNat 8 (0x40 + 4 * i)) 4 v) m ∧ t.dataIn[i] = v

/-- A step that changes the staging registers is a host write, an INIT, CLEAR or reset; the last three zeroise
them whole, whether or not the INIT succeeds. -/
def Obligations.StagingIsZeroisedAfterUse : Prop :=
  ∀ s t : State, step s = .next t →
    ((s.resets ∨ s.completes .clear ∨ ∃ klen nlen, s.completes (.init klen nlen)) →
      t.keyIn = Vector.replicate 8 0 ∧ t.nonceIn = Vector.replicate 2 0) ∧
    (¬ s.resets → ¬ s.completes .clear → (∀ klen nlen, ¬ s.completes (.init klen nlen)) →
      (t.keyIn ≠ s.keyIn ∨ t.nonceIn ≠ s.nonceIn) →
      ∃ off v m, s.hostAccesses (.write off 4 v) m ∧ 0x10 ≤ off.toNat ∧ off.toNat < 0x38)

/-- No step and no reset removes a record of FAULTS, and only a bus error of the host adds one. -/
def Obligations.FaultRecordsAreNeverRemoved : Prop :=
  ∀ s t : State, step s = .next t →
    (∀ f ∈ s.faults, f ∈ t.faults) ∧
    (t.faults ≠ s.faults → ∃ a m r, s.hostAccesses a m ∧ t.responses = s.responses ++ [.error r] ∧
      ∀ f ∈ t.faults, f ∈ s.faults ∨ f = ⟨r, s.pc⟩)

/-- The step of an accepted host write is exactly what `memWrite` does (O40 says what that is), an `accepted`
answer (log entry 7) and pc + 1: a write to KEY_IN, NONCE_IN, DATA_IN or CMD takes effect, and nothing else
changes. -/
def Obligations.AcceptedWriteIsMemWrite : Prop :=
  ∀ (s u : State) (off : Offset) (n m : Nat) (v : Word), s.hostAccesses (.write off n v) m →
    memWrite (s.countAccess m) off n v = .ok u →
    ∃ t, step s = .next t ∧ t = { u with responses := s.responses ++ [.accepted], pc := s.pc + 1 } ∧
      t.hardware = u.hardware ∧ t.faults = s.faults ∧ t.program = s.program
end

