-- ==== Sys2Proof/Laws/State.lean ====
section
/-! SUPPORT. One lemma per field per update of the state, true by `rfl`, so that no proof unfolds a record
update. `succeed`, `raise` and `initFail` are rewritten to `finish`. -/

namespace Sys2Proof.Machine.State

variable (s : State)

@[simp] theorem succeed_eq_finish : s.succeed = s.finish 0 := rfl
@[simp] theorem raise_eq_finish (e : CommandError) : s.raise e = s.finish e.code := rfl
@[simp] theorem initFail_eq_finish (e : CommandError) :
    s.initFail e = s.dropCipher.zeroiseStaging.finish e.code := rfl


/-! ## The end of a command -/

@[simp] theorem finish_cipher (c : BitVec 4) : (s.finish c).cipher = s.cipher := rfl
@[simp] theorem finish_valid (c : BitVec 4) : (s.finish c).valid = s.valid := rfl
@[simp] theorem finish_ksPos (c : BitVec 4) : (s.finish c).ksPos = s.ksPos := rfl
@[simp] theorem finish_err (c : BitVec 4) : (s.finish c).err = c := rfl
@[simp] theorem finish_busy (c : BitVec 4) : (s.finish c).busy = false := rfl
@[simp] theorem finish_pending (c : BitVec 4) : (s.finish c).pending = none := rfl
@[simp] theorem finish_keyIn (c : BitVec 4) : (s.finish c).keyIn = s.keyIn := rfl
@[simp] theorem finish_nonceIn (c : BitVec 4) : (s.finish c).nonceIn = s.nonceIn := rfl
@[simp] theorem finish_dataIn (c : BitVec 4) : (s.finish c).dataIn = s.dataIn := rfl
@[simp] theorem finish_dataOut (c : BitVec 4) : (s.finish c).dataOut = s.dataOut := rfl
@[simp] theorem finish_work (c : BitVec 4) : (s.finish c).work = s.work := rfl
@[simp] theorem finish_keystream (c : BitVec 4) : (s.finish c).keystream = s.keystream := rfl
@[simp] theorem finish_faults (c : BitVec 4) : (s.finish c).faults = s.faults := rfl
@[simp] theorem finish_program (c : BitVec 4) : (s.finish c).program = s.program := rfl
@[simp] theorem finish_pc (c : BitVec 4) : (s.finish c).pc = s.pc := rfl
@[simp] theorem finish_responses (c : BitVec 4) : (s.finish c).responses = s.responses := rfl
@[simp] theorem finish_turn (c : BitVec 4) : (s.finish c).turn = s.turn := rfl
@[simp] theorem finish_wait (c : BitVec 4) : (s.finish c).wait = s.wait := rfl
@[simp] theorem finish_draws (c : BitVec 4) : (s.finish c).draws = s.draws := rfl

/-! ## Zeroising the staging registers -/

@[simp] theorem zeroiseStaging_cipher : (s.zeroiseStaging).cipher = s.cipher := rfl
@[simp] theorem zeroiseStaging_valid : (s.zeroiseStaging).valid = s.valid := rfl
@[simp] theorem zeroiseStaging_ksPos : (s.zeroiseStaging).ksPos = s.ksPos := rfl
@[simp] theorem zeroiseStaging_err : (s.zeroiseStaging).err = s.err := rfl
@[simp] theorem zeroiseStaging_busy : (s.zeroiseStaging).busy = s.busy := rfl
@[simp] theorem zeroiseStaging_pending : (s.zeroiseStaging).pending = s.pending := rfl
@[simp] theorem zeroiseStaging_keyIn : (s.zeroiseStaging).keyIn = zeros 8 := rfl
@[simp] theorem zeroiseStaging_nonceIn : (s.zeroiseStaging).nonceIn = zeros 2 := rfl
@[simp] theorem zeroiseStaging_dataIn : (s.zeroiseStaging).dataIn = s.dataIn := rfl
@[simp] theorem zeroiseStaging_dataOut : (s.zeroiseStaging).dataOut = s.dataOut := rfl
@[simp] theorem zeroiseStaging_work : (s.zeroiseStaging).work = s.work := rfl
@[simp] theorem zeroiseStaging_keystream : (s.zeroiseStaging).keystream = s.keystream := rfl
@[simp] theorem zeroiseStaging_faults : (s.zeroiseStaging).faults = s.faults := rfl
@[simp] theorem zeroiseStaging_program : (s.zeroiseStaging).program = s.program := rfl
@[simp] theorem zeroiseStaging_pc : (s.zeroiseStaging).pc = s.pc := rfl
@[simp] theorem zeroiseStaging_responses : (s.zeroiseStaging).responses = s.responses := rfl
@[simp] theorem zeroiseStaging_turn : (s.zeroiseStaging).turn = s.turn := rfl
@[simp] theorem zeroiseStaging_wait : (s.zeroiseStaging).wait = s.wait := rfl
@[simp] theorem zeroiseStaging_draws : (s.zeroiseStaging).draws = s.draws := rfl

/-! ## Dropping the CipherState -/

@[simp] theorem dropCipher_cipher : (s.dropCipher).cipher = zeros 16 := rfl
@[simp] theorem dropCipher_valid : (s.dropCipher).valid = false := rfl
@[simp] theorem dropCipher_ksPos : (s.dropCipher).ksPos = 0 := rfl
@[simp] theorem dropCipher_err : (s.dropCipher).err = s.err := rfl
@[simp] theorem dropCipher_busy : (s.dropCipher).busy = s.busy := rfl
@[simp] theorem dropCipher_pending : (s.dropCipher).pending = s.pending := rfl
@[simp] theorem dropCipher_keyIn : (s.dropCipher).keyIn = s.keyIn := rfl
@[simp] theorem dropCipher_nonceIn : (s.dropCipher).nonceIn = s.nonceIn := rfl
@[simp] theorem dropCipher_dataIn : (s.dropCipher).dataIn = s.dataIn := rfl
@[simp] theorem dropCipher_dataOut : (s.dropCipher).dataOut = s.dataOut := rfl
@[simp] theorem dropCipher_work : (s.dropCipher).work = s.work := rfl
@[simp] theorem dropCipher_keystream : (s.dropCipher).keystream = s.keystream := rfl
@[simp] theorem dropCipher_faults : (s.dropCipher).faults = s.faults := rfl
@[simp] theorem dropCipher_program : (s.dropCipher).program = s.program := rfl
@[simp] theorem dropCipher_pc : (s.dropCipher).pc = s.pc := rfl
@[simp] theorem dropCipher_responses : (s.dropCipher).responses = s.responses := rfl
@[simp] theorem dropCipher_turn : (s.dropCipher).turn = s.turn := rfl
@[simp] theorem dropCipher_wait : (s.dropCipher).wait = s.wait := rfl
@[simp] theorem dropCipher_draws : (s.dropCipher).draws = s.draws := rfl

/-! ## Scrubbing W and K -/

@[simp] theorem scrubBuffers_cipher : (s.scrubBuffers).cipher = s.cipher := rfl
@[simp] theorem scrubBuffers_valid : (s.scrubBuffers).valid = s.valid := rfl
@[simp] theorem scrubBuffers_ksPos : (s.scrubBuffers).ksPos = s.ksPos := rfl
@[simp] theorem scrubBuffers_err : (s.scrubBuffers).err = s.err := rfl
@[simp] theorem scrubBuffers_busy : (s.scrubBuffers).busy = s.busy := rfl
@[simp] theorem scrubBuffers_pending : (s.scrubBuffers).pending = s.pending := rfl
@[simp] theorem scrubBuffers_keyIn : (s.scrubBuffers).keyIn = s.keyIn := rfl
@[simp] theorem scrubBuffers_nonceIn : (s.scrubBuffers).nonceIn = s.nonceIn := rfl
@[simp] theorem scrubBuffers_dataIn : (s.scrubBuffers).dataIn = s.dataIn := rfl
@[simp] theorem scrubBuffers_dataOut : (s.scrubBuffers).dataOut = s.dataOut := rfl
@[simp] theorem scrubBuffers_work : (s.scrubBuffers).work = zeros 16 := rfl
@[simp] theorem scrubBuffers_keystream : (s.scrubBuffers).keystream = zeros 16 := rfl
@[simp] theorem scrubBuffers_faults : (s.scrubBuffers).faults = s.faults := rfl
@[simp] theorem scrubBuffers_program : (s.scrubBuffers).program = s.program := rfl
@[simp] theorem scrubBuffers_pc : (s.scrubBuffers).pc = s.pc := rfl
@[simp] theorem scrubBuffers_responses : (s.scrubBuffers).responses = s.responses := rfl
@[simp] theorem scrubBuffers_turn : (s.scrubBuffers).turn = s.turn := rfl
@[simp] theorem scrubBuffers_wait : (s.scrubBuffers).wait = s.wait := rfl
@[simp] theorem scrubBuffers_draws : (s.scrubBuffers).draws = s.draws := rfl

/-! ## The counter advance -/

@[simp] theorem advance_cipher : (s.advance).cipher = advanceCounter s.cipher := rfl
@[simp] theorem advance_valid : (s.advance).valid = s.valid := rfl
@[simp] theorem advance_ksPos : (s.advance).ksPos = s.ksPos := rfl
@[simp] theorem advance_err : (s.advance).err = s.err := rfl
@[simp] theorem advance_busy : (s.advance).busy = s.busy := rfl
@[simp] theorem advance_pending : (s.advance).pending = s.pending := rfl
@[simp] theorem advance_keyIn : (s.advance).keyIn = s.keyIn := rfl
@[simp] theorem advance_nonceIn : (s.advance).nonceIn = s.nonceIn := rfl
@[simp] theorem advance_dataIn : (s.advance).dataIn = s.dataIn := rfl
@[simp] theorem advance_dataOut : (s.advance).dataOut = s.dataOut := rfl
@[simp] theorem advance_work : (s.advance).work = s.work := rfl
@[simp] theorem advance_keystream : (s.advance).keystream = s.keystream := rfl
@[simp] theorem advance_faults : (s.advance).faults = s.faults := rfl
@[simp] theorem advance_program : (s.advance).program = s.program := rfl
@[simp] theorem advance_pc : (s.advance).pc = s.pc := rfl
@[simp] theorem advance_responses : (s.advance).responses = s.responses := rfl
@[simp] theorem advance_turn : (s.advance).turn = s.turn := rfl
@[simp] theorem advance_wait : (s.advance).wait = s.wait := rfl
@[simp] theorem advance_draws : (s.advance).draws = s.draws := rfl

/-! ## An accepted write to CMD -/

@[simp] theorem startCommand_cipher (v : Word) : (s.startCommand v).cipher = s.cipher := rfl
@[simp] theorem startCommand_valid (v : Word) : (s.startCommand v).valid = s.valid := rfl
@[simp] theorem startCommand_ksPos (v : Word) : (s.startCommand v).ksPos = s.ksPos := rfl
@[simp] theorem startCommand_err (v : Word) : (s.startCommand v).err = s.err := rfl
@[simp] theorem startCommand_busy (v : Word) : (s.startCommand v).busy = true := rfl
@[simp] theorem startCommand_pending (v : Word) : (s.startCommand v).pending = some v := rfl
@[simp] theorem startCommand_keyIn (v : Word) : (s.startCommand v).keyIn = s.keyIn := rfl
@[simp] theorem startCommand_nonceIn (v : Word) : (s.startCommand v).nonceIn = s.nonceIn := rfl
@[simp] theorem startCommand_dataIn (v : Word) : (s.startCommand v).dataIn = s.dataIn := rfl
@[simp] theorem startCommand_dataOut (v : Word) : (s.startCommand v).dataOut = s.dataOut := rfl
@[simp] theorem startCommand_work (v : Word) : (s.startCommand v).work = s.work := rfl
@[simp] theorem startCommand_keystream (v : Word) : (s.startCommand v).keystream = s.keystream := rfl
@[simp] theorem startCommand_faults (v : Word) : (s.startCommand v).faults = s.faults := rfl
@[simp] theorem startCommand_program (v : Word) : (s.startCommand v).program = s.program := rfl
@[simp] theorem startCommand_pc (v : Word) : (s.startCommand v).pc = s.pc := rfl
@[simp] theorem startCommand_responses (v : Word) : (s.startCommand v).responses = s.responses := rfl
@[simp] theorem startCommand_turn (v : Word) : (s.startCommand v).turn = s.turn := rfl
@[simp] theorem startCommand_wait (v : Word) : (s.startCommand v).wait = Config.freeLatency s.draws := rfl
@[simp] theorem startCommand_draws (v : Word) : (s.startCommand v).draws = s.draws := rfl

/-! ## Counting an access -/

@[simp] theorem countAccess_cipher (m : Nat) : (s.countAccess m).cipher = s.cipher := rfl
@[simp] theorem countAccess_valid (m : Nat) : (s.countAccess m).valid = s.valid := rfl
@[simp] theorem countAccess_ksPos (m : Nat) : (s.countAccess m).ksPos = s.ksPos := rfl
@[simp] theorem countAccess_err (m : Nat) : (s.countAccess m).err = s.err := rfl
@[simp] theorem countAccess_busy (m : Nat) : (s.countAccess m).busy = s.busy := rfl
@[simp] theorem countAccess_pending (m : Nat) : (s.countAccess m).pending = s.pending := rfl
@[simp] theorem countAccess_keyIn (m : Nat) : (s.countAccess m).keyIn = s.keyIn := rfl
@[simp] theorem countAccess_nonceIn (m : Nat) : (s.countAccess m).nonceIn = s.nonceIn := rfl
@[simp] theorem countAccess_dataIn (m : Nat) : (s.countAccess m).dataIn = s.dataIn := rfl
@[simp] theorem countAccess_dataOut (m : Nat) : (s.countAccess m).dataOut = s.dataOut := rfl
@[simp] theorem countAccess_work (m : Nat) : (s.countAccess m).work = s.work := rfl
@[simp] theorem countAccess_keystream (m : Nat) : (s.countAccess m).keystream = s.keystream := rfl
@[simp] theorem countAccess_faults (m : Nat) : (s.countAccess m).faults = s.faults := rfl
@[simp] theorem countAccess_program (m : Nat) : (s.countAccess m).program = s.program := rfl
@[simp] theorem countAccess_pc (m : Nat) : (s.countAccess m).pc = s.pc := rfl
@[simp] theorem countAccess_responses (m : Nat) : (s.countAccess m).responses = s.responses := rfl
@[simp] theorem countAccess_turn (m : Nat) : (s.countAccess m).turn = some m := rfl
@[simp] theorem countAccess_wait (m : Nat) : (s.countAccess m).wait = s.wait - 1 := rfl
@[simp] theorem countAccess_draws (m : Nat) : (s.countAccess m).draws = s.draws + 1 := rfl

/-! ## An answer of the port -/

@[simp] theorem respond_cipher (r : Response) (p : Nat) : (s.respond r p).cipher = s.cipher := rfl
@[simp] theorem respond_valid (r : Response) (p : Nat) : (s.respond r p).valid = s.valid := rfl
@[simp] theorem respond_ksPos (r : Response) (p : Nat) : (s.respond r p).ksPos = s.ksPos := rfl
@[simp] theorem respond_err (r : Response) (p : Nat) : (s.respond r p).err = s.err := rfl
@[simp] theorem respond_busy (r : Response) (p : Nat) : (s.respond r p).busy = s.busy := rfl
@[simp] theorem respond_pending (r : Response) (p : Nat) : (s.respond r p).pending = s.pending := rfl
@[simp] theorem respond_keyIn (r : Response) (p : Nat) : (s.respond r p).keyIn = s.keyIn := rfl
@[simp] theorem respond_nonceIn (r : Response) (p : Nat) : (s.respond r p).nonceIn = s.nonceIn := rfl
@[simp] theorem respond_dataIn (r : Response) (p : Nat) : (s.respond r p).dataIn = s.dataIn := rfl
@[simp] theorem respond_dataOut (r : Response) (p : Nat) : (s.respond r p).dataOut = s.dataOut := rfl
@[simp] theorem respond_work (r : Response) (p : Nat) : (s.respond r p).work = s.work := rfl
@[simp] theorem respond_keystream (r : Response) (p : Nat) : (s.respond r p).keystream = s.keystream := rfl
@[simp] theorem respond_faults (r : Response) (p : Nat) : (s.respond r p).faults = s.faults := rfl
@[simp] theorem respond_program (r : Response) (p : Nat) : (s.respond r p).program = s.program := rfl
@[simp] theorem respond_pc (r : Response) (p : Nat) : (s.respond r p).pc = p := rfl
@[simp] theorem respond_responses (r : Response) (p : Nat) : (s.respond r p).responses = s.responses ++ [r] := rfl
@[simp] theorem respond_turn (r : Response) (p : Nat) : (s.respond r p).turn = s.turn := rfl
@[simp] theorem respond_wait (r : Response) (p : Nat) : (s.respond r p).wait = s.wait := rfl
@[simp] theorem respond_draws (r : Response) (p : Nat) : (s.respond r p).draws = s.draws := rfl

/-! ## A bus error -/

@[simp] theorem busError_cipher (r : BusReason) : (s.busError r).cipher = s.cipher := rfl
@[simp] theorem busError_valid (r : BusReason) : (s.busError r).valid = s.valid := rfl
@[simp] theorem busError_ksPos (r : BusReason) : (s.busError r).ksPos = s.ksPos := rfl
@[simp] theorem busError_err (r : BusReason) : (s.busError r).err = s.err := rfl
@[simp] theorem busError_busy (r : BusReason) : (s.busError r).busy = s.busy := rfl
@[simp] theorem busError_pending (r : BusReason) : (s.busError r).pending = s.pending := rfl
@[simp] theorem busError_keyIn (r : BusReason) : (s.busError r).keyIn = s.keyIn := rfl
@[simp] theorem busError_nonceIn (r : BusReason) : (s.busError r).nonceIn = s.nonceIn := rfl
@[simp] theorem busError_dataIn (r : BusReason) : (s.busError r).dataIn = s.dataIn := rfl
@[simp] theorem busError_dataOut (r : BusReason) : (s.busError r).dataOut = s.dataOut := rfl
@[simp] theorem busError_work (r : BusReason) : (s.busError r).work = s.work := rfl
@[simp] theorem busError_keystream (r : BusReason) : (s.busError r).keystream = s.keystream := rfl
@[simp] theorem busError_faults (r : BusReason) : (s.busError r).faults = s.faults.insert ⟨r, s.pc⟩ := rfl
@[simp] theorem busError_program (r : BusReason) : (s.busError r).program = s.program := rfl
@[simp] theorem busError_pc (r : BusReason) : (s.busError r).pc = s.pc + 1 := rfl
@[simp] theorem busError_responses (r : BusReason) : (s.busError r).responses = s.responses ++ [.error r] := rfl
@[simp] theorem busError_turn (r : BusReason) : (s.busError r).turn = s.turn := rfl
@[simp] theorem busError_wait (r : BusReason) : (s.busError r).wait = s.wait := rfl
@[simp] theorem busError_draws (r : BusReason) : (s.busError r).draws = s.draws := rfl

/-! ## A command word in flight -/

@[simp] theorem withFetchWord_cipher (n w : Nat) : (s.withFetchWord n w).cipher = s.cipher := rfl
@[simp] theorem withFetchWord_valid (n w : Nat) : (s.withFetchWord n w).valid = s.valid := rfl
@[simp] theorem withFetchWord_ksPos (n w : Nat) : (s.withFetchWord n w).ksPos = s.ksPos := rfl
@[simp] theorem withFetchWord_err (n w : Nat) : (s.withFetchWord n w).err = s.err := rfl
@[simp] theorem withFetchWord_busy (n w : Nat) : (s.withFetchWord n w).busy = true := rfl
@[simp] theorem withFetchWord_pending (n w : Nat) : (s.withFetchWord n w).pending = some (BitVec.ofNat 32 (w % 2 ^ n)) := rfl
@[simp] theorem withFetchWord_keyIn (n w : Nat) : (s.withFetchWord n w).keyIn = s.keyIn := rfl
@[simp] theorem withFetchWord_nonceIn (n w : Nat) : (s.withFetchWord n w).nonceIn = s.nonceIn := rfl
@[simp] theorem withFetchWord_dataIn (n w : Nat) : (s.withFetchWord n w).dataIn = s.dataIn := rfl
@[simp] theorem withFetchWord_dataOut (n w : Nat) : (s.withFetchWord n w).dataOut = s.dataOut := rfl
@[simp] theorem withFetchWord_work (n w : Nat) : (s.withFetchWord n w).work = s.work := rfl
@[simp] theorem withFetchWord_keystream (n w : Nat) : (s.withFetchWord n w).keystream = s.keystream := rfl
@[simp] theorem withFetchWord_faults (n w : Nat) : (s.withFetchWord n w).faults = s.faults := rfl
@[simp] theorem withFetchWord_program (n w : Nat) : (s.withFetchWord n w).program = s.program := rfl
@[simp] theorem withFetchWord_pc (n w : Nat) : (s.withFetchWord n w).pc = s.pc := rfl
@[simp] theorem withFetchWord_responses (n w : Nat) : (s.withFetchWord n w).responses = s.responses := rfl
@[simp] theorem withFetchWord_turn (n w : Nat) : (s.withFetchWord n w).turn = s.turn := rfl
@[simp] theorem withFetchWord_wait (n w : Nat) : (s.withFetchWord n w).wait = 0 := rfl
@[simp] theorem withFetchWord_draws (n w : Nat) : (s.withFetchWord n w).draws = s.draws := rfl

/-! ## Writing DATA_OUT -/

@[simp] theorem setDataOut_cipher (D : Block) : (s.setDataOut D).cipher = s.cipher := rfl
@[simp] theorem setDataOut_valid (D : Block) : (s.setDataOut D).valid = s.valid := rfl
@[simp] theorem setDataOut_ksPos (D : Block) : (s.setDataOut D).ksPos = s.ksPos := rfl
@[simp] theorem setDataOut_err (D : Block) : (s.setDataOut D).err = s.err := rfl
@[simp] theorem setDataOut_busy (D : Block) : (s.setDataOut D).busy = s.busy := rfl
@[simp] theorem setDataOut_pending (D : Block) : (s.setDataOut D).pending = s.pending := rfl
@[simp] theorem setDataOut_keyIn (D : Block) : (s.setDataOut D).keyIn = s.keyIn := rfl
@[simp] theorem setDataOut_nonceIn (D : Block) : (s.setDataOut D).nonceIn = s.nonceIn := rfl
@[simp] theorem setDataOut_dataIn (D : Block) : (s.setDataOut D).dataIn = s.dataIn := rfl
@[simp] theorem setDataOut_dataOut (D : Block) : (s.setDataOut D).dataOut = D := rfl
@[simp] theorem setDataOut_work (D : Block) : (s.setDataOut D).work = s.work := rfl
@[simp] theorem setDataOut_keystream (D : Block) : (s.setDataOut D).keystream = s.keystream := rfl
@[simp] theorem setDataOut_faults (D : Block) : (s.setDataOut D).faults = s.faults := rfl
@[simp] theorem setDataOut_program (D : Block) : (s.setDataOut D).program = s.program := rfl
@[simp] theorem setDataOut_pc (D : Block) : (s.setDataOut D).pc = s.pc := rfl
@[simp] theorem setDataOut_responses (D : Block) : (s.setDataOut D).responses = s.responses := rfl
@[simp] theorem setDataOut_turn (D : Block) : (s.setDataOut D).turn = s.turn := rfl
@[simp] theorem setDataOut_wait (D : Block) : (s.setDataOut D).wait = s.wait := rfl
@[simp] theorem setDataOut_draws (D : Block) : (s.setDataOut D).draws = s.draws := rfl

/-! ## Writing KS_POS -/

@[simp] theorem setKsPos_cipher (p : Nat) : (s.setKsPos p).cipher = s.cipher := rfl
@[simp] theorem setKsPos_valid (p : Nat) : (s.setKsPos p).valid = s.valid := rfl
@[simp] theorem setKsPos_ksPos (p : Nat) : (s.setKsPos p).ksPos = BitVec.ofNat 6 p := rfl
@[simp] theorem setKsPos_err (p : Nat) : (s.setKsPos p).err = s.err := rfl
@[simp] theorem setKsPos_busy (p : Nat) : (s.setKsPos p).busy = s.busy := rfl
@[simp] theorem setKsPos_pending (p : Nat) : (s.setKsPos p).pending = s.pending := rfl
@[simp] theorem setKsPos_keyIn (p : Nat) : (s.setKsPos p).keyIn = s.keyIn := rfl
@[simp] theorem setKsPos_nonceIn (p : Nat) : (s.setKsPos p).nonceIn = s.nonceIn := rfl
@[simp] theorem setKsPos_dataIn (p : Nat) : (s.setKsPos p).dataIn = s.dataIn := rfl
@[simp] theorem setKsPos_dataOut (p : Nat) : (s.setKsPos p).dataOut = s.dataOut := rfl
@[simp] theorem setKsPos_work (p : Nat) : (s.setKsPos p).work = s.work := rfl
@[simp] theorem setKsPos_keystream (p : Nat) : (s.setKsPos p).keystream = s.keystream := rfl
@[simp] theorem setKsPos_faults (p : Nat) : (s.setKsPos p).faults = s.faults := rfl
@[simp] theorem setKsPos_program (p : Nat) : (s.setKsPos p).program = s.program := rfl
@[simp] theorem setKsPos_pc (p : Nat) : (s.setKsPos p).pc = s.pc := rfl
@[simp] theorem setKsPos_responses (p : Nat) : (s.setKsPos p).responses = s.responses := rfl
@[simp] theorem setKsPos_turn (p : Nat) : (s.setKsPos p).turn = s.turn := rfl
@[simp] theorem setKsPos_wait (p : Nat) : (s.setKsPos p).wait = s.wait := rfl
@[simp] theorem setKsPos_draws (p : Nat) : (s.setKsPos p).draws = s.draws := rfl

/-! ## A register write: what it never changes -/

@[simp] theorem writeReg_cipher (v : Word) (r : Reg) : (s.writeReg v r).cipher = s.cipher := by cases r <;> rfl
@[simp] theorem writeReg_valid (v : Word) (r : Reg) : (s.writeReg v r).valid = s.valid := by cases r <;> rfl
@[simp] theorem writeReg_ksPos (v : Word) (r : Reg) : (s.writeReg v r).ksPos = s.ksPos := by cases r <;> rfl
@[simp] theorem writeReg_err (v : Word) (r : Reg) : (s.writeReg v r).err = s.err := by cases r <;> rfl
@[simp] theorem writeReg_dataOut (v : Word) (r : Reg) : (s.writeReg v r).dataOut = s.dataOut := by cases r <;> rfl
@[simp] theorem writeReg_work (v : Word) (r : Reg) : (s.writeReg v r).work = s.work := by cases r <;> rfl
@[simp] theorem writeReg_keystream (v : Word) (r : Reg) : (s.writeReg v r).keystream = s.keystream := by cases r <;> rfl
@[simp] theorem writeReg_faults (v : Word) (r : Reg) : (s.writeReg v r).faults = s.faults := by cases r <;> rfl
@[simp] theorem writeReg_program (v : Word) (r : Reg) : (s.writeReg v r).program = s.program := by cases r <;> rfl
@[simp] theorem writeReg_pc (v : Word) (r : Reg) : (s.writeReg v r).pc = s.pc := by cases r <;> rfl
@[simp] theorem writeReg_responses (v : Word) (r : Reg) : (s.writeReg v r).responses = s.responses := by cases r <;> rfl
@[simp] theorem writeReg_turn (v : Word) (r : Reg) : (s.writeReg v r).turn = s.turn := by cases r <;> rfl
@[simp] theorem writeReg_draws (v : Word) (r : Reg) : (s.writeReg v r).draws = s.draws := by cases r <;> rfl

/-! ## The reset event -/

@[simp] theorem resetEvent_cipher : s.resetEvent.cipher = State.reset.cipher := rfl
@[simp] theorem resetEvent_valid : s.resetEvent.valid = State.reset.valid := rfl
@[simp] theorem resetEvent_ksPos : s.resetEvent.ksPos = State.reset.ksPos := rfl
@[simp] theorem resetEvent_err : s.resetEvent.err = State.reset.err := rfl
@[simp] theorem resetEvent_busy : s.resetEvent.busy = State.reset.busy := rfl
@[simp] theorem resetEvent_pending : s.resetEvent.pending = State.reset.pending := rfl
@[simp] theorem resetEvent_keyIn : s.resetEvent.keyIn = State.reset.keyIn := rfl
@[simp] theorem resetEvent_nonceIn : s.resetEvent.nonceIn = State.reset.nonceIn := rfl
@[simp] theorem resetEvent_dataIn : s.resetEvent.dataIn = State.reset.dataIn := rfl
@[simp] theorem resetEvent_dataOut : s.resetEvent.dataOut = State.reset.dataOut := rfl
@[simp] theorem resetEvent_work : s.resetEvent.work = State.reset.work := rfl
@[simp] theorem resetEvent_keystream : s.resetEvent.keystream = State.reset.keystream := rfl
@[simp] theorem resetEvent_faults : s.resetEvent.faults = s.faults := rfl
@[simp] theorem resetEvent_program : s.resetEvent.program = s.program := rfl
@[simp] theorem resetEvent_pc : s.resetEvent.pc = s.pc + 1 := rfl
@[simp] theorem resetEvent_responses : s.resetEvent.responses = s.responses := rfl
@[simp] theorem resetEvent_turn : s.resetEvent.turn = s.turn := rfl
@[simp] theorem resetEvent_wait : s.resetEvent.wait = State.reset.wait := rfl
@[simp] theorem resetEvent_draws : s.resetEvent.draws = s.draws := rfl

end Sys2Proof.Machine.State
end

