-- ==== Sys2Proof/Laws/Operands.lean ====
section
/-! SUPPORT. The byte view of the buffers, the counter view of S, and the stream position: one lemma for each
fact the later laws cite. -/

namespace Sys2Proof.Machine

/-! ## Blocks -/

@[simp] theorem zeros_getElem {n i : Nat} (h : i < n) : (zeros n)[i] = 0 := by simp [zeros]

/-- Two blocks are equal when their 16 words are. -/
theorem block_ext {B C : Block} (h : ∀ i : Fin 16, B[i] = C[i]) : B = C :=
  Vector.ext fun i hi => h ⟨i, hi⟩

/-! ## Bytes (R52) -/

theorem byteOf_of_lt {n : Nat} (B : Vector Word n) {j : Nat} (h : j / 4 < n) :
    byteOf B j = B[j / 4].extractLsb' (8 * (j % 4)) 8 := by
  simp [byteOf, h]

theorem wordsOfBytes_getElem {n : Nat} (b : Nat → Byte) {i : Nat} (h : i < n) :
    (wordsOfBytes n b)[i] = wordOfBytes (b (4 * i)) (b (4 * i + 1)) (b (4 * i + 2)) (b (4 * i + 3)) := by
  simp [wordsOfBytes]

/-- Lane `k` of a word of four bytes is its byte `k`. -/
theorem extract_wordOfBytes (b0 b1 b2 b3 : Byte) :
    (wordOfBytes b0 b1 b2 b3).extractLsb' 0 8 = b0 ∧ (wordOfBytes b0 b1 b2 b3).extractLsb' 8 8 = b1 ∧
    (wordOfBytes b0 b1 b2 b3).extractLsb' 16 8 = b2 ∧ (wordOfBytes b0 b1 b2 b3).extractLsb' 24 8 = b3 := by
  refine ⟨?_, ?_, ?_, ?_⟩ <;>
  · ext i hi
    simp only [wordOfBytes, BitVec.getElem_extractLsb', BitVec.getLsbD_append]
    grind

theorem wordOfBytes_extract (w : Word) :
    wordOfBytes (w.extractLsb' 0 8) (w.extractLsb' 8 8) (w.extractLsb' 16 8) (w.extractLsb' 24 8) = w := by
  ext i hi
  simp only [wordOfBytes]
  grind

/-- The bytes of a buffer that a byte string stands in are that string's. -/
theorem byteOf_wordsOfBytes {n : Nat} (b : Nat → Byte) {j : Nat} (h : j < 4 * n) :
    byteOf (wordsOfBytes n b) j = b j := by
  have hj : j / 4 < n := by omega
  rw [byteOf_of_lt _ hj, wordsOfBytes_getElem b hj]
  obtain ⟨h0, h1, h2, h3⟩ :=
    extract_wordOfBytes (b (4 * (j / 4))) (b (4 * (j / 4) + 1)) (b (4 * (j / 4) + 2)) (b (4 * (j / 4) + 3))
  have hm : j % 4 < 4 := Nat.mod_lt _ (by omega)
  have hd := Nat.div_add_mod j 4
  generalize j / 4 = d at *
  generalize j % 4 = m at *
  subst hd
  match m, hm with
  | 0, _ => exact h0
  | 1, _ => exact h1
  | 2, _ => exact h2
  | 3, _ => exact h3

/-- A buffer is the words of its own bytes. -/
theorem wordsOfBytes_byteOf {n : Nat} (B : Vector Word n) : wordsOfBytes n (byteOf B) = B := by
  refine Vector.ext fun i hi => ?_
  rw [wordsOfBytes_getElem _ hi]
  have lane : ∀ k, k < 4 → byteOf B (4 * i + k) = B[i].extractLsb' (8 * k) 8 := by
    intro k hk
    have hd : (4 * i + k) / 4 = i := by omega
    have hm : (4 * i + k) % 4 = k := by omega
    rw [byteOf_of_lt B (by omega)]
    simp only [hd, hm]
  have h0 := lane 0 (by omega)
  rw [Nat.add_zero] at h0
  rw [h0, lane 1 (by omega), lane 2 (by omega), lane 3 (by omega)]
  exact wordOfBytes_extract _

theorem wordsOfBytes_congr {n : Nat} {b c : Nat → Byte} (h : ∀ j < 4 * n, b j = c j) :
    wordsOfBytes n b = wordsOfBytes n c := by
  refine Vector.ext fun i hi => ?_
  rw [wordsOfBytes_getElem _ hi, wordsOfBytes_getElem _ hi, h _ (by omega), h _ (by omega),
    h _ (by omega), h _ (by omega)]

/-- Two blocks are equal when their 64 bytes are. -/
theorem block_ext_bytes {B C : Block} (h : ∀ j < 64, byteOf B j = byteOf C j) : B = C := by
  rw [← wordsOfBytes_byteOf B, ← wordsOfBytes_byteOf C]
  exact wordsOfBytes_congr h

@[simp] theorem byteOf_zeros (n j : Nat) : byteOf (zeros n) j = 0 := by
  unfold byteOf zeros
  by_cases h : j / 4 < n <;> simp [h]

/-! ## The counter (R22, R141, R144) -/

/-- The counter value a block holds in its words 12 and 13. -/
def counterOf (S : Block) : U64 := S[13] ++ S[12]

theorem State.ctr_eq (s : State) : s.ctr = counterOf s.cipher := rfl

theorem counterOf_toNat (S : Block) : (counterOf S).toNat = S[12].toNat + 2 ^ 32 * S[13].toNat := by
  rw [counterOf, BitVec.toNat_append, ← Nat.shiftLeft_add_eq_or_of_lt S[12].isLt, Nat.shiftLeft_eq]
  omega

@[simp] theorem lowWord_append (h l : Word) : lowWord (h ++ l) = l := by
  apply BitVec.eq_of_toNat_eq
  simp only [lowWord, BitVec.extractLsb'_toNat, BitVec.toNat_append, Nat.shiftRight_zero]
  rw [← Nat.shiftLeft_add_eq_or_of_lt l.isLt, Nat.shiftLeft_eq]
  omega

@[simp] theorem highWord_append (h l : Word) : highWord (h ++ l) = h := by
  apply BitVec.eq_of_toNat_eq
  simp only [highWord, BitVec.extractLsb'_toNat, BitVec.toNat_append]
  rw [← Nat.shiftLeft_add_eq_or_of_lt l.isLt, Nat.shiftLeft_eq, Nat.shiftRight_eq_div_pow]
  omega

theorem lowWord_toNat (c : U64) : (lowWord c).toNat = c.toNat % 2 ^ 32 := by
  simp [lowWord]

theorem highWord_toNat (c : U64) : (highWord c).toNat = c.toNat / 2 ^ 32 := by
  simp only [highWord, BitVec.extractLsb'_toNat, Nat.shiftRight_eq_div_pow]
  omega

@[simp] theorem counterOf_blockInput (S : Block) (c : U64) : counterOf (blockInput S c) = c := by
  apply BitVec.eq_of_toNat_eq
  rw [counterOf_toNat]
  show (lowWord c).toNat + 2 ^ 32 * (highWord c).toNat = c.toNat
  rw [lowWord_toNat, highWord_toNat]
  omega

@[simp] theorem blockInput_blockInput (S : Block) (c d : U64) :
    blockInput (blockInput S c) d = blockInput S d := rfl

/-- Words of a block by their number. -/
theorem block_eq_of_words {B C : Block}
    (h0 : B[0] = C[0]) (h1 : B[1] = C[1]) (h2 : B[2] = C[2]) (h3 : B[3] = C[3])
    (h4 : B[4] = C[4]) (h5 : B[5] = C[5]) (h6 : B[6] = C[6]) (h7 : B[7] = C[7])
    (h8 : B[8] = C[8]) (h9 : B[9] = C[9]) (h10 : B[10] = C[10]) (h11 : B[11] = C[11])
    (h12 : B[12] = C[12]) (h13 : B[13] = C[13]) (h14 : B[14] = C[14]) (h15 : B[15] = C[15]) : B = C := by
  refine block_ext fun i => ?_
  fin_cases i <;> assumption

/-- `KSIN(ctr)` is S itself (R141). -/
@[simp] theorem blockInput_counterOf (S : Block) : blockInput S (counterOf S) = S := by
  apply block_eq_of_words <;> try rfl
  · exact lowWord_append _ _
  · exact highWord_append _ _

/-- ADVANCE is the block input of the next counter value (R144). -/
theorem advanceCounter_eq (S : Block) (h : (counterOf S).toNat < 2 ^ 64 - 1) :
    advanceCounter S = blockInput S (BitVec.ofNat 64 ((counterOf S).toNat + 1)) := by
  have hc := counterOf_toNat S
  have l12 := S[12].isLt
  have l13 := S[13].isLt
  have low := lowWord_toNat (BitVec.ofNat 64 ((counterOf S).toNat + 1))
  have high := highWord_toNat (BitVec.ofNat 64 ((counterOf S).toNat + 1))
  have hn : (BitVec.ofNat 64 ((counterOf S).toNat + 1)).toNat = (counterOf S).toNat + 1 := by
    rw [BitVec.toNat_ofNat]
    omega
  rw [hn] at low high
  unfold advanceCounter
  split
  · next h12 =>
    have h12' : S[12].toNat ≠ 0xFFFFFFFF := fun e => h12 (BitVec.eq_of_toNat_eq e)
    apply block_eq_of_words <;> try (simp [blockInput]; done)
    · apply BitVec.eq_of_toNat_eq
      show (S.set 12 (S[12] + 1))[12].toNat = _
      rw [Vector.getElem_set_self, BitVec.toNat_add]
      show _ = (lowWord _).toNat
      rw [low]
      show (S[12].toNat + 1) % 2 ^ 32 = _
      omega
    · apply BitVec.eq_of_toNat_eq
      show (S.set 12 (S[12] + 1))[13].toNat = _
      rw [Vector.getElem_set_ne _ _ (by omega)]
      show _ = (highWord _).toNat
      rw [high]
      omega
  · next h12 =>
    have h12' : S[12].toNat = 0xFFFFFFFF := by
      rw [Decidable.not_not.mp h12]
      rfl
    apply block_eq_of_words <;> try (simp [blockInput]; done)
    · apply BitVec.eq_of_toNat_eq
      show ((S.set 12 0).set 13 (S[13] + 1))[12].toNat = _
      rw [Vector.getElem_set_ne _ _ (by omega), Vector.getElem_set_self]
      show _ = (lowWord _).toNat
      rw [low]
      show 0 = _
      omega
    · apply BitVec.eq_of_toNat_eq
      show ((S.set 12 0).set 13 (S[13] + 1))[13].toNat = _
      rw [Vector.getElem_set_self, BitVec.toNat_add]
      show _ = (highWord _).toNat
      rw [high]
      show (S[13].toNat + 1) % 2 ^ 32 = _
      omega

/-- Of S, ADVANCE changes words 12 and 13 only. -/
theorem advanceCounter_getElem (S : Block) {i : Nat} (h : i < 16) (h12 : i ≠ 12) (h13 : i ≠ 13) :
    (advanceCounter S)[i] = S[i] := by
  unfold advanceCounter
  split
  · exact Vector.getElem_set_ne _ _ (by omega)
  · rw [Vector.getElem_set_ne _ _ (by omega), Vector.getElem_set_ne _ _ (by omega)]

/-! ## The stream position (R161) -/

/-- A natural stream position splits into its block and its offset: `b0 = P div 64`, `p = P mod 64`. -/
theorem State.streamPos_split (s : State) {P : Nat} (h : s.streamPos = P) :
    s.firstBlock = (P / 64 : Nat) ∧ s.ksPos.toNat = P % 64 ∧ s.ctr.toNat = (P + 63) / 64 := by
  have hp := s.ksPos.isLt
  have hz : s.ksPos = 0 ↔ s.ksPos.toNat = 0 := by
    constructor
    · intro e; rw [e]; rfl
    · intro e; exact BitVec.eq_of_toNat_eq e
  unfold State.streamPos at h
  unfold State.firstBlock
  split at h <;> rename_i h0
  · rw [if_pos h0]
    rw [hz] at h0
    omega
  · rw [if_neg h0]
    rw [hz] at h0
    omega

theorem State.firstBlock_mul_add (s : State) : 64 * s.firstBlock + s.ksPos.toNat = s.streamPos := by
  unfold State.streamPos State.firstBlock
  split
  · next h => rw [h]; simp
  · rfl

end Sys2Proof.Machine
end

