-- ==== Sys2Proof/Laws/Commands.lean ====
section
/-! SUPPORT. What each command can do, said once: its error cases and the one state of its success. Later
proofs cite these lemmas and do not unfold the meanings. -/

namespace Sys2Proof.Machine

/-! ## APPLY: its counter and its bytes -/

theorem ksPos_eq_zero_iff (s : State) : s.ksPos = 0 ↔ s.ksPos.toNat = 0 :=
  ⟨fun e => by rw [e]; rfl, fun e => BitVec.eq_of_toNat_eq e⟩

/-- A chunk moves the counter by 0 or 1 (R163: "c2 is c or c + 1"). -/
theorem counterAfter_cases (s : State) {len : Nat} (h : len ≤ 64) :
    (s.counterAfter len = s.ctr.toNat ∧ (s.ksPos = 0 → len = 0) ∧ s.ksPos.toNat + len ≤ 64) ∨
    (s.counterAfter len = (s.ctr.toNat : Int) + 1 ∧ (s.ksPos ≠ 0 → 64 < s.ksPos.toNat + len)) := by
  have hp := s.ksPos.isLt
  have hz := ksPos_eq_zero_iff s
  unfold State.counterAfter State.firstBlock
  by_cases h0 : s.ksPos = 0
  · have hn := hz.mp h0
    rw [if_pos h0]
    by_cases hl : len = 0
    · left
      refine ⟨by omega, fun _ => hl, by omega⟩
    · right
      exact ⟨by omega, fun hc => absurd h0 hc⟩
  · have hn : s.ksPos.toNat ≠ 0 := fun e => h0 (hz.mpr e)
    rw [if_neg h0]
    by_cases hl : s.ksPos.toNat + len ≤ 64
    · left
      exact ⟨by omega, fun hc => absurd hc h0, hl⟩
    · right
      exact ⟨by omega, fun _ => by omega⟩

theorem counterAfter_nonneg (s : State) {len : Nat} (h : len ≤ 64) : 0 ≤ s.counterAfter len := by
  rcases counterAfter_cases s h with ⟨e, _⟩ | ⟨e, _⟩ <;> omega

/-- The counter after a chunk, from the stream position (R166). -/
theorem counterAfter_eq_div (s : State) (len : Nat) :
    s.counterAfter len = (s.streamPos + len + 63) / 64 := by
  have h := s.firstBlock_mul_add
  unfold State.counterAfter
  omega

theorem ofNat_of_toNat_eq {c : U64} {n : Nat} (h : c.toNat = n) : c = BitVec.ofNat 64 n := by
  rw [← h, BitVec.ofNat_toNat, BitVec.setWidth_eq]

/-- After `advanceTo` the counter words hold `c2`, and nothing else differs. -/
theorem advanceTo_counterAfter (s t : State) {len : Nat} (hl : len ≤ 64) (hS : t.cipher = s.cipher)
    (hc : s.counterAfter len ≤ maxCounter) :
    t.advanceTo (s.counterAfter len) =
      { t with cipher := blockInput s.cipher (BitVec.ofNat 64 (s.counterAfter len).toNat) } := by
  have ht : t.ctr = s.ctr := by rw [State.ctr_eq, State.ctr_eq, hS]
  have hm : (maxCounter : Int) = 2 ^ 64 - 1 := rfl
  unfold State.advanceTo
  rw [ht]
  rcases counterAfter_cases s hl with ⟨e, _⟩ | ⟨e, _⟩
  · rw [if_neg (by omega), e, Int.toNat_natCast, BitVec.ofNat_toNat, BitVec.setWidth_eq, State.ctr_eq,
      blockInput_counterOf, ← hS]
  · rw [if_pos e, e]
    have hn : ((s.ctr.toNat : Int) + 1).toNat = s.ctr.toNat + 1 := by omega
    rw [hn, State.ctr_eq]
    have hlt : (counterOf s.cipher).toNat < 2 ^ 64 - 1 := by
      rw [← State.ctr_eq]; omega
    rw [← advanceCounter_eq _ hlt, ← hS]
    rfl

theorem streamBlock_eq (s : State) {P : Nat} (h : s.streamPos = P) (j : Nat) :
    s.streamBlock j = keystreamBlock s.cipher (BitVec.ofNat 64 (P / 64 + j)) := by
  obtain ⟨hb, -, -⟩ := s.streamPos_split h
  unfold State.streamBlock
  rw [hb]
  congr 1

/-- Output byte `i` of a chunk at stream position `P` (R163, R164). -/
theorem byteOf_chunkOutput (s : State) {P len i : Nat} (h : s.streamPos = P) (hi : i < 64) :
    byteOf (s.chunkOutput len) i =
      if i < len then byteOf s.dataIn i ^^^ keystreamByte s.cipher (P + i) else 0 := by
  obtain ⟨-, hp, -⟩ := s.streamPos_split h
  unfold State.chunkOutput
  rw [byteOf_wordsOfBytes _ (by omega)]
  unfold chunkByte keystreamByte
  rw [streamBlock_eq s h, streamBlock_eq s h, hp]
  have hm : (P + i) % 64 = (P % 64 + i) % 64 := by omega
  rw [hm]
  split
  · by_cases hq : (P % 64 + i) / 64 = 0
    · have hd : (P + i) / 64 = P / 64 + 0 := by omega
      rw [if_pos hq, hd]
    · have hd : (P + i) / 64 = P / 64 + 1 := by omega
      rw [if_neg hq, hd]
  · rfl

/-! ## What each command answers -/

theorem execApply_invalidLength (s : State) {len : Nat} (h : 64 < len) :
    execApply len s = .next (s.finish 5) := by
  unfold execApply
  rw [if_pos h]
  rfl

theorem execApply_notInitialized (s : State) {len : Nat} (h : len ≤ 64) (hv : s.valid = false) :
    execApply len s = .next (s.finish 4) := by
  unfold execApply
  rw [if_neg (by omega), if_pos hv]
  rfl

theorem execApply_exhausted (s : State) {len : Nat} (h : len ≤ 64) (hv : s.valid = true)
    (hc : (maxCounter : Int) < s.counterAfter len) : execApply len s = .next (s.finish 7) := by
  unfold execApply
  rw [if_neg (by omega), if_neg (by simp [hv]), if_pos hc]
  rfl

/-- The state a successful APPLY leaves (R163). -/
def State.applied (s : State) (len : Nat) : State :=
  { s with
    dataOut := s.chunkOutput len
    cipher := blockInput s.cipher (BitVec.ofNat 64 (s.counterAfter len).toNat)
    ksPos := BitVec.ofNat 6 ((s.ksPos.toNat + len) % 64)
    work := zeros 16, keystream := zeros 16
    err := 0, busy := false, pending := none }

theorem execApply_succeeds (s : State) {len : Nat} (h : len ≤ 64) (hv : s.valid = true)
    (hc : s.counterAfter len ≤ maxCounter) : execApply len s = .next (s.applied len) := by
  unfold execApply
  rw [if_neg (by omega), if_neg (by simp [hv]), if_neg (by omega)]
  rw [advanceTo_counterAfter s (s.setDataOut (s.chunkOutput len)) h rfl hc]
  simp only [State.applied, State.setDataOut, State.setKsPos, State.scrubBuffers, State.succeed,
    State.finish]

/-- Everything APPLY can do. -/
theorem execApply_cases (s : State) (len : Nat) :
    (64 < len ∧ execApply len s = .next (s.finish 5)) ∨
    (len ≤ 64 ∧ s.valid = false ∧ execApply len s = .next (s.finish 4)) ∨
    (len ≤ 64 ∧ s.valid = true ∧ (maxCounter : Int) < s.counterAfter len ∧
      execApply len s = .next (s.finish 7)) ∨
    (len ≤ 64 ∧ s.valid = true ∧ s.counterAfter len ≤ maxCounter ∧
      execApply len s = .next (s.applied len)) := by
  by_cases h : 64 < len
  · exact .inl ⟨h, execApply_invalidLength s h⟩
  · have h := Nat.le_of_not_lt h
    cases hv : s.valid
    · exact .inr (.inl ⟨h, rfl, execApply_notInitialized s h hv⟩)
    · by_cases hc : s.counterAfter len ≤ maxCounter
      · exact .inr (.inr (.inr ⟨h, rfl, hc, execApply_succeeds s h hv hc⟩))
      · have hc := Int.lt_of_not_ge hc
        exact .inr (.inr (.inl ⟨h, rfl, hc, execApply_exhausted s h hv hc⟩))

/-- A successful APPLY: ERR is 0 exactly in the last case. -/
theorem execApply_ok {s t : State} {len : Nat} (h : execApply len s = .next t) (he : t.err = 0) :
    len ≤ 64 ∧ s.valid = true ∧ s.counterAfter len ≤ maxCounter ∧ t = s.applied len := by
  rcases execApply_cases s len with ⟨_, e⟩ | ⟨_, _, e⟩ | ⟨_, _, _, e⟩ | ⟨hl, hv, hc, e⟩ <;>
    (rw [e] at h; cases h)
  · exact absurd he (by simp)
  · exact absurd he (by simp)
  · exact absurd he (by simp)
  · exact ⟨hl, hv, hc, rfl⟩

/-- The state a successful KSBLOCK leaves (R149). -/
def State.blockDelivered (s : State) : State :=
  { s with
    dataOut := keystreamBlock s.cipher s.ctr
    cipher := blockInput s.cipher (BitVec.ofNat 64 (s.ctr.toNat + 1))
    work := zeros 16, keystream := zeros 16
    err := 0, busy := false, pending := none }

/-- Everything KSBLOCK can do. -/
theorem execKsblock_cases (s : State) :
    (s.valid = false ∧ execKsblock s = .next (s.finish 4)) ∨
    (s.valid = true ∧ s.ksPos ≠ 0 ∧ execKsblock s = .next (s.finish 6)) ∨
    (s.valid = true ∧ s.ksPos = 0 ∧ s.ctr.toNat = maxCounter ∧ execKsblock s = .next (s.finish 7)) ∨
    (s.valid = true ∧ s.ksPos = 0 ∧ s.ctr.toNat < maxCounter ∧
      execKsblock s = .next s.blockDelivered) := by
  by_cases hv : s.valid = false
  · exact .inl ⟨hv, by unfold execKsblock; rw [if_pos hv]; rfl⟩
  · have hv' : s.valid = true := by simpa using hv
    by_cases hp : s.ksPos = 0
    · by_cases hc : s.ctr.toNat = maxCounter
      · refine .inr (.inr (.inl ⟨hv', hp, hc, ?_⟩))
        unfold execKsblock
        rw [if_neg hv, if_neg (by simp [hp]), if_pos hc]
        rfl
      · have hlt : s.ctr.toNat < maxCounter := by
          have := s.ctr.isLt
          unfold maxCounter at *
          omega
        refine .inr (.inr (.inr ⟨hv', hp, hlt, ?_⟩))
        have hS : advanceCounter s.cipher = blockInput s.cipher (BitVec.ofNat 64 (s.ctr.toNat + 1)) :=
          advanceCounter_eq s.cipher hlt
        unfold execKsblock
        rw [if_neg hv, if_neg (by simp [hp]), if_neg hc]
        simp only [State.blockDelivered, State.setDataOut, State.advance, State.scrubBuffers,
          State.succeed, State.finish, hS]
    · refine .inr (.inl ⟨hv', hp, ?_⟩)
      unfold execKsblock
      rw [if_neg hv, if_pos hp]
      rfl

/-- The state a successful INIT leaves (R103). -/
def State.initialised (s : State) : State :=
  { s with
    cipher := freshCipher s.keyIn s.nonceIn, ksPos := 0, valid := true
    keyIn := zeros 8, nonceIn := zeros 2
    err := 0, busy := false, pending := none }

/-- Everything INIT can do. -/
theorem execInit_cases (s : State) (klen nlen : Nat) :
    (klen ≠ 32 ∧ execInit klen nlen s = .next (s.initFail .invalidKeyLength)) ∨
    (klen = 32 ∧ nlen ≠ 8 ∧ execInit klen nlen s = .next (s.initFail .invalidNonceLength)) ∨
    (klen = 32 ∧ nlen = 8 ∧ execInit klen nlen s = .next s.initialised) := by
  unfold execInit
  by_cases hk : klen = 32
  · by_cases hn : nlen = 8
    · exact .inr (.inr ⟨hk, hn, by simp only [hk, hn, ne_eq, not_true, if_false]; rfl⟩)
    · exact .inr (.inl ⟨hk, hn, by simp only [hk, hn, ne_eq, not_true, not_false_eq_true, if_false, if_true]⟩)
  · exact .inl ⟨hk, by simp only [hk, ne_eq, not_false_eq_true, if_true]⟩

/-- The state CLEAR leaves (R106). -/
def State.cleared (s : State) : State :=
  { s with
    cipher := zeros 16, ksPos := 0, valid := false
    keyIn := zeros 8, nonceIn := zeros 2, dataIn := zeros 16, dataOut := zeros 16
    err := 0, busy := false, pending := none }

theorem execClear_eq (s : State) : execClear s = .next s.cleared := rfl

/-- The state TRANSFORM leaves (R130). -/
def State.transformed (s : State) : State :=
  { s with
    dataOut := transform s.dataIn, work := zeros 16
    err := 0, busy := false, pending := none }

theorem execTransform_eq (s : State) : execTransform s = .next s.transformed := rfl

theorem execNop_eq (s : State) : execNop s = .next (s.finish 0) := rfl

end Sys2Proof.Machine
end

