-- ==== Sys2Proof/Laws/Decode.lean ====
section
/-! SUPPORT. The fields of a command word as numbers, everything the decoder can answer, and the masks of the
opcode table as conditions on the fields. -/

namespace Sys2Proof

/-- The fields of a word as numbers (R81, R82). -/
theorem fields_toNat (w : Word) :
    (opField w).toNat = w.toNat % 16 ∧ (faField w).toNat = w.toNat / 16 % 256 ∧
    (fbField w).toNat = w.toNat / 4096 % 256 ∧ (rsvField w).toNat = w.toNat / 1048576 := by
  have h := w.isLt
  simp only [opField, faField, fbField, rsvField, BitVec.extractLsb'_toNat, Nat.shiftRight_eq_div_pow]
  refine ⟨by omega, ?_, ?_, by omega⟩
  · norm_num
  · norm_num

theorem bitVec_eq_iff {n : Nat} (x y : BitVec n) : x = y ↔ x.toNat = y.toNat :=
  ⟨fun e => by rw [e], BitVec.eq_of_toNat_eq⟩

/-- A command word as a number (R81). -/
theorem commandWord_toNat (op : BitVec 4) {fa fb : Nat} (ha : fa < 256) (hb : fb < 256) :
    (commandWord op fa fb).toNat = op.toNat + 16 * fa + 4096 * fb := by
  have ho := op.isLt
  unfold commandWord
  rw [BitVec.toNat_append, BitVec.toNat_append, BitVec.toNat_append]
  simp only [BitVec.toNat_ofNat]
  rw [← Nat.shiftLeft_add_eq_or_of_lt (by omega), ← Nat.shiftLeft_add_eq_or_of_lt (by omega),
    ← Nat.shiftLeft_add_eq_or_of_lt (by omega)]
  simp only [Nat.shiftLeft_eq]
  omega

/-- Everything the decoder can answer, by the fields as numbers (R84). -/
theorem decode_cases (w : Word) :
    (w.toNat / 1048576 ≠ 0 ∧ decode w = .error .reservedField) ∨
    (w.toNat / 1048576 = 0 ∧ w.toNat % 16 ∈ [0, 3, 4, 5] ∧
      (w.toNat / 16 % 256 ≠ 0 ∨ w.toNat / 4096 % 256 ≠ 0) ∧ decode w = .error .unusedField) ∨
    (w.toNat / 1048576 = 0 ∧ w.toNat % 16 = 2 ∧ w.toNat / 4096 % 256 ≠ 0 ∧
      decode w = .error .unusedField) ∨
    (w.toNat / 1048576 = 0 ∧ 5 < w.toNat % 16 ∧ decode w = .error .reservedOpcode) ∨
    (w.toNat = 0 ∧ decode w = .ok .nop) ∨
    (w.toNat / 1048576 = 0 ∧ w.toNat % 16 = 1 ∧
      decode w = .ok (.init (w.toNat / 16 % 256) (w.toNat / 4096 % 256))) ∨
    (w.toNat / 4096 = 0 ∧ w.toNat % 16 = 2 ∧ decode w = .ok (.apply (w.toNat / 16 % 256))) ∨
    (w.toNat = 3 ∧ decode w = .ok .ksblock) ∨
    (w.toNat = 4 ∧ decode w = .ok .transform) ∨
    (w.toNat = 5 ∧ decode w = .ok .clear) := by
  obtain ⟨ho, ha, hb, hr⟩ := fields_toNat w
  have z : ∀ {n : Nat} (x : BitVec n), x = 0 ↔ x.toNat = 0 := fun x => by simp [bitVec_eq_iff]
  unfold decode withoutOperands
  by_cases h : w.toNat / 1048576 = 0
  · have hop : w.toNat % 16 = 0 ∨ w.toNat % 16 = 1 ∨ w.toNat % 16 = 2 ∨ w.toNat % 16 = 3 ∨
        w.toNat % 16 = 4 ∨ w.toNat % 16 = 5 ∨ 5 < w.toNat % 16 := by omega
    have hnr : ¬ rsvField w ≠ 0 := by rw [ne_eq, z, hr]; omega
    rw [if_neg hnr]
    have none : ∀ i : Instr,
        ((w.toNat / 16 % 256 ≠ 0 ∨ w.toNat / 4096 % 256 ≠ 0) ∧
          (if faField w ≠ 0 ∨ fbField w ≠ 0 then Except.error DecodeError.unusedField else .ok i) =
            .error .unusedField) ∨
        (w.toNat / 16 % 256 = 0 ∧ w.toNat / 4096 % 256 = 0 ∧
          (if faField w ≠ 0 ∨ fbField w ≠ 0 then Except.error DecodeError.unusedField else .ok i) =
            .ok i) := by
      intro i
      simp only [ne_eq, z, ha, hb]
      by_cases h1 : w.toNat / 16 % 256 = 0 <;> by_cases h2 : w.toNat / 4096 % 256 = 0 <;> simp [h1, h2]
    rcases hop with e | e | e | e | e | e | e
    · rw [show (opField w).toNat = 0 from ho.trans e]
      rcases none .nop with ⟨h1, h2⟩ | ⟨h1, h2, h3⟩
      · exact .inr (.inl ⟨h, by simp [e], h1, h2⟩)
      · exact .inr (.inr (.inr (.inr (.inl ⟨by omega, h3⟩))))
    · rw [show (opField w).toNat = 1 from ho.trans e]
      exact .inr (.inr (.inr (.inr (.inr (.inl ⟨h, e, by simp only [ha, hb]⟩)))))
    · rw [show (opField w).toNat = 2 from ho.trans e]
      by_cases h1 : w.toNat / 4096 % 256 = 0
      · refine .inr (.inr (.inr (.inr (.inr (.inr (.inl ⟨by omega, e, ?_⟩))))))
        simp only [ne_eq, z, hb, h1, not_true, if_false, ha]
      · refine .inr (.inr (.inl ⟨h, e, h1, ?_⟩))
        simp only [ne_eq, z, hb, h1, not_false_eq_true, if_true]
    · rw [show (opField w).toNat = 3 from ho.trans e]
      rcases none .ksblock with ⟨h1, h2⟩ | ⟨h1, h2, h3⟩
      · exact .inr (.inl ⟨h, by simp [e], h1, h2⟩)
      · exact .inr (.inr (.inr (.inr (.inr (.inr (.inr (.inl ⟨by omega, h3⟩)))))))
    · rw [show (opField w).toNat = 4 from ho.trans e]
      rcases none .transform with ⟨h1, h2⟩ | ⟨h1, h2, h3⟩
      · exact .inr (.inl ⟨h, by simp [e], h1, h2⟩)
      · exact .inr (.inr (.inr (.inr (.inr (.inr (.inr (.inr (.inl ⟨by omega, h3⟩))))))))
    · rw [show (opField w).toNat = 5 from ho.trans e]
      rcases none .clear with ⟨h1, h2⟩ | ⟨h1, h2, h3⟩
      · exact .inr (.inl ⟨h, by simp [e], h1, h2⟩)
      · exact .inr (.inr (.inr (.inr (.inr (.inr (.inr (.inr (.inr ⟨by omega, h3⟩))))))))
    · refine .inr (.inr (.inr (.inl ⟨h, e, ?_⟩)))
      split <;> first | omega | rfl
  · have hnr : rsvField w ≠ 0 := by rw [ne_eq, z, hr]; exact h
    exact .inl ⟨h, by rw [if_pos hnr]⟩

/-- A field of a masked word. -/
theorem extractLsb'_and (w m : Word) (start len : Nat) :
    (w &&& m).extractLsb' start len = w.extractLsb' start len &&& m.extractLsb' start len := by
  ext i hi
  simp

theorem getLsbD_opField (w : Word) {i : Nat} (h : i < 4) : w.getLsbD i = (opField w).getLsbD i := by
  simp [opField, h]

theorem getLsbD_fbField (w : Word) {i : Nat} (h : 12 ≤ i) (h' : i < 20) :
    w.getLsbD i = (fbField w).getLsbD (i - 12) := by
  have e : 12 + (i - 12) = i := by omega
  simp [fbField, e, show i - 12 < 8 by omega]

theorem getLsbD_rsvField (w : Word) {i : Nat} (h : 20 ≤ i) (h' : i < 32) :
    w.getLsbD i = (rsvField w).getLsbD (i - 20) := by
  have e : 20 + (i - 20) = i := by omega
  simp [rsvField, e, show i - 20 < 12 by omega]

theorem and_full4 (x : BitVec 4) : x &&& 15#4 = x := BitVec.and_allOnes
theorem and_full8 (x : BitVec 8) : x &&& 255#8 = x := BitVec.and_allOnes
theorem and_full12 (x : BitVec 12) : x &&& 4095#12 = x := BitVec.and_allOnes

/-- INIT's row, as a condition on the fields (R85). -/
theorem mask_init_iff (w : Word) : w &&& 0xFFF0000F = 1 ↔ opField w = 1 ∧ rsvField w = 0 := by
  constructor
  · intro h
    have ho := congrArg opField h
    have hr := congrArg rsvField h
    unfold opField rsvField at *
    rw [extractLsb'_and] at ho hr
    exact ⟨by simpa [and_full4] using ho, by simpa [and_full12] using hr⟩
  · rintro ⟨ho, hr⟩
    refine BitVec.eq_of_getLsbD_eq fun i hi => ?_
    have lo := @getLsbD_opField w i
    have up := fun h => @getLsbD_rsvField w i h hi
    rw [ho] at lo
    rw [hr] at up
    rw [BitVec.getLsbD_and]
    interval_cases i <;> simp_all

/-- APPLY's row, as a condition on the fields (R85). -/
theorem mask_apply_iff (w : Word) :
    w &&& 0xFFFFF00F = 2 ↔ opField w = 2 ∧ fbField w = 0 ∧ rsvField w = 0 := by
  constructor
  · intro h
    have ho := congrArg opField h
    have hb := congrArg fbField h
    have hr := congrArg rsvField h
    unfold opField fbField rsvField at *
    rw [extractLsb'_and] at ho hb hr
    exact ⟨by simpa [and_full4] using ho, by simpa [and_full8] using hb, by simpa [and_full12] using hr⟩
  · rintro ⟨ho, hb, hr⟩
    refine BitVec.eq_of_getLsbD_eq fun i hi => ?_
    have lo := @getLsbD_opField w i
    have mid := @getLsbD_fbField w i
    have up := fun h => @getLsbD_rsvField w i h hi
    rw [ho] at lo
    rw [hb] at mid
    rw [hr] at up
    rw [BitVec.getLsbD_and]
    interval_cases i <;> simp_all

end Sys2Proof
end

