-- ==== Sys2Proof/Laws/PerInstr.lean ====
section
/-! SUPPORT. Statements about every instruction as syntax, one lemma per constructor. -/

namespace Sys2Proof.Laws.EncodedWordRow

/-- The encoded word of a well-formed instruction belongs to its own row of the match and mask table (R85,
R88). -/
def Statement (i : Instr) : Prop := i.WellFormed → i.row.accepts (encode i) = true

theorem nop : Statement .nop := fun _ => by decide

theorem init (klen nlen : Nat) : Statement (.init klen nlen) := by
  rintro ⟨hk, hn⟩
  have e := commandWord_toNat 1 hk hn
  obtain ⟨ho, -, -, hr⟩ := fields_toNat (commandWord 1 klen nlen)
  have h1 : (1 : BitVec 4).toNat = 1 := rfl
  unfold fitsField at *
  refine beq_iff_eq.mpr ((mask_init_iff _).mpr ⟨BitVec.eq_of_toNat_eq ?_, BitVec.eq_of_toNat_eq ?_⟩)
  · show (opField (commandWord 1 klen nlen)).toNat = _
    rw [ho, e, h1]
    omega
  · show (rsvField (commandWord 1 klen nlen)).toNat = _
    rw [hr, e, h1]
    show _ = 0
    omega

theorem apply (len : Nat) : Statement (.apply len) := by
  intro hl
  have hl : len < 256 := hl
  have e := commandWord_toNat 2 hl (show 0 < 256 by omega)
  obtain ⟨ho, -, hb, hr⟩ := fields_toNat (commandWord 2 len 0)
  have h2 : (2 : BitVec 4).toNat = 2 := rfl
  refine beq_iff_eq.mpr ((mask_apply_iff _).mpr
    ⟨BitVec.eq_of_toNat_eq ?_, BitVec.eq_of_toNat_eq ?_, BitVec.eq_of_toNat_eq ?_⟩)
  · show (opField (commandWord 2 len 0)).toNat = _
    rw [ho, e, h2]
    omega
  · show (fbField (commandWord 2 len 0)).toNat = _
    rw [hb, e, h2]
    show _ = 0
    omega
  · show (rsvField (commandWord 2 len 0)).toNat = _
    rw [hr, e, h2]
    show _ = 0
    omega

theorem ksblock : Statement .ksblock := fun _ => by decide

theorem transform : Statement .transform := fun _ => by decide

theorem clear : Statement .clear := fun _ => by decide

end Sys2Proof.Laws.EncodedWordRow
end

