-- ==== Sys2Proof/Laws/Step.lean ====
section
/-! SUPPORT. What the port, the agents and the step can do, said once: later proofs cite these inversion
lemmas and do not unfold `step`. -/

namespace Sys2Proof.Machine

/-! ## The port (R55, R58, R59) -/

/-- Of the state, the checks of an access read BUSY only. -/
theorem portCheck_congr {s t : State} (h : s.busy = t.busy) (off : Offset) (n : Nat)
    (allowed : Reg → Bool) : portCheck s off n allowed = portCheck t off n allowed := by
  unfold portCheck
  rw [h]

/-- An access that the checks let through. -/
theorem portCheck_ok {s : State} {off : Offset} {n : Nat} {allowed : Reg → Bool} {r : Reg}
    (h : portCheck s off n allowed = .ok r) :
    n = 4 ∧ off.toNat % 4 = 0 ∧ regAt off = some r ∧ (s.busy = true → allowed r = true) := by
  unfold portCheck at h
  split at h
  · cases h
  · next hn =>
    split at h
    · cases h
    · next hm =>
      split at h
      · cases h
      · next hr =>
        split at h
        · cases h
        · next hb =>
          cases h
          refine ⟨by omega, by omega, hr, fun hs => ?_⟩
          simpa [hs] using hb

/-- The checks of a mapped, aligned 4-byte access. -/
theorem portCheck_mapped (s : State) {off : Offset} {r : Reg} (allowed : Reg → Bool)
    (ha : off.toNat % 4 = 0) (hr : regAt off = some r) :
    portCheck s off 4 allowed = if s.busy && !allowed r then .error .busyAccess else .ok r := by
  unfold portCheck
  rw [if_neg (by omega), if_neg (by omega), hr]

/-- A read answers a value exactly where the checks let it through. -/
theorem memRead_ok {s : State} {off : Offset} {n : Nat} {v : Word} (h : memRead s off n = .ok v) :
    ∃ r, portCheck s off n (· == .status) = .ok r ∧ v = s.readReg r := by
  unfold memRead at h
  split at h
  · cases h
  · next r hr => exact ⟨r, hr, by cases h; rfl⟩

theorem memRead_error {s : State} {off : Offset} {n : Nat} {r : BusReason} :
    memRead s off n = .error r ↔ portCheck s off n (· == .status) = .error r := by
  unfold memRead
  split <;> simp_all

/-- A write lands exactly where the checks let it through, and never while BUSY = 1 (R206). -/
theorem memWrite_ok {s t : State} {off : Offset} {n : Nat} {v : Word}
    (h : memWrite s off n v = .ok t) :
    ∃ r, n = 4 ∧ off.toNat % 4 = 0 ∧ regAt off = some r ∧ s.busy = false ∧ t = s.writeReg v r := by
  unfold memWrite at h
  split at h
  · cases h
  · next r hr =>
    obtain ⟨hn, hm, hr, hb⟩ := portCheck_ok hr
    refine ⟨r, hn, hm, hr, ?_, by cases h; rfl⟩
    cases hs : s.busy
    · rfl
    · exact absurd (hb hs) (by simp)

theorem memWrite_error {s : State} {off : Offset} {n : Nat} {v : Word} {r : BusReason} :
    memWrite s off n v = .error r ↔ portCheck s off n (fun _ => false) = .error r := by
  unfold memWrite
  split <;> simp_all

/-- The address map, register by register (R54). -/
theorem regAt_cases (off : Offset) :
    (off.toNat < 0x04 ∧ regAt off = some .cmd) ∨
    (0x04 ≤ off.toNat ∧ off.toNat < 0x08 ∧ regAt off = some .status) ∨
    (0x08 ≤ off.toNat ∧ off.toNat < 0x0C ∧ regAt off = some .ctrLo) ∨
    (0x0C ≤ off.toNat ∧ off.toNat < 0x10 ∧ regAt off = some .ctrHi) ∨
    (∃ k : Fin 8, 0x10 ≤ off.toNat ∧ off.toNat < 0x30 ∧ k.val = (off.toNat - 0x10) / 4 ∧
      regAt off = some (.keyIn k)) ∨
    (∃ j : Fin 2, 0x30 ≤ off.toNat ∧ off.toNat < 0x38 ∧ j.val = (off.toNat - 0x30) / 4 ∧
      regAt off = some (.nonceIn j)) ∨
    (((0x38 ≤ off.toNat ∧ off.toNat < 0x40) ∨ 0xC0 ≤ off.toNat) ∧ regAt off = none) ∨
    (∃ i : Fin 16, 0x40 ≤ off.toNat ∧ off.toNat < 0x80 ∧ i.val = (off.toNat - 0x40) / 4 ∧
      regAt off = some (.dataIn i)) ∨
    (∃ i : Fin 16, 0x80 ≤ off.toNat ∧ off.toNat < 0xC0 ∧ i.val = (off.toNat - 0x80) / 4 ∧
      regAt off = some (.dataOut i)) := by
  unfold regAt
  by_cases h0 : off.toNat < 0x04
  · exact .inl ⟨h0, if_pos h0⟩
  by_cases h1 : off.toNat < 0x08
  · exact .inr (.inl ⟨by omega, h1, by simp [h0, h1]⟩)
  by_cases h2 : off.toNat < 0x0C
  · exact .inr (.inr (.inl ⟨by omega, h2, by simp [h0, h1, h2]⟩))
  by_cases h3 : off.toNat < 0x10
  · exact .inr (.inr (.inr (.inl ⟨by omega, h3, by simp [h0, h1, h2, h3]⟩)))
  by_cases h4 : off.toNat < 0x30
  · exact .inr (.inr (.inr (.inr (.inl ⟨⟨(off.toNat - 0x10) / 4, by omega⟩, by omega, h4, rfl,
      by simp [h0, h1, h2, h3, h4]⟩))))
  by_cases h5 : off.toNat < 0x38
  · exact .inr (.inr (.inr (.inr (.inr (.inl ⟨⟨(off.toNat - 0x30) / 4, by omega⟩, by omega, h5, rfl,
      by simp [h0, h1, h2, h3, h4, h5]⟩)))))
  by_cases h6 : off.toNat < 0x40
  · exact .inr (.inr (.inr (.inr (.inr (.inr (.inl ⟨.inl ⟨by omega, h6⟩,
      by simp [h0, h1, h2, h3, h4, h5, h6]⟩))))))
  by_cases h7 : off.toNat < 0x80
  · exact .inr (.inr (.inr (.inr (.inr (.inr (.inr (.inl ⟨⟨(off.toNat - 0x40) / 4, by omega⟩, by omega,
      h7, rfl, by simp [h0, h1, h2, h3, h4, h5, h6, h7]⟩)))))))
  by_cases h8 : off.toNat < 0xC0
  · exact .inr (.inr (.inr (.inr (.inr (.inr (.inr (.inr ⟨⟨(off.toNat - 0x80) / 4, by omega⟩, by omega,
      h8, rfl, by simp [h0, h1, h2, h3, h4, h5, h6, h7, h8]⟩)))))))
  · exact .inr (.inr (.inr (.inr (.inr (.inr (.inl ⟨.inr (by omega),
      by simp [h0, h1, h2, h3, h4, h5, h6, h7, h8]⟩))))))

/-! ## The agents -/

/-- Everything one access of the host can do. -/
theorem perform_cases (s : State) (a : Access) :
    (∃ r, s.perform a = s.busError r) ∨
    (∃ v p, s.perform a = s.respond (.data v) p) ∨
    (∃ off v r, a = .write off 4 v ∧ off.toNat % 4 = 0 ∧ regAt off = some r ∧ s.busy = false ∧
      s.perform a = (s.writeReg v r).respond .accepted (s.pc + 1)) := by
  have read : ∀ off n next, (∃ r, s.hostRead off n next = s.busError r) ∨
      (∃ v p, s.hostRead off n next = s.respond (.data v) p) := by
    intro off n next
    unfold State.hostRead
    split
    · exact .inl ⟨_, rfl⟩
    · exact .inr ⟨_, _, rfl⟩
  cases a with
  | read off n => exact (read off n _).imp id .inl
  | readExpect off v => exact (read off 4 _).imp id .inl
  | branchNonzero off mask target => exact (read off 4 _).imp id .inl
  | write off n v =>
    have hw : s.perform (.write off n v) = s.hostWrite off n v := rfl
    rw [hw]
    unfold State.hostWrite
    split
    · exact .inl ⟨_, rfl⟩
    · next t ht =>
      obtain ⟨r, rfl, hm, hr, hb, rfl⟩ := memWrite_ok ht
      exact .inr (.inr ⟨off, v, r, rfl, hm, hr, hb, rfl⟩)

/-- Everything a step that goes on can be. -/
theorem step_cases {s t : State} (h : step s = .next t) :
    (∃ w e, s.engineMoves = true ∧ s.pending = some w ∧ decode w = .error e ∧ t = s.finish 1) ∨
    (∃ i, s.completes i ∧ exec i s = .next t) ∨
    (s.resets ∧ t = s.resetEvent) ∨
    (∃ a m, s.hostAccesses a m ∧ t = (s.countAccess m).perform a) ∨
    (s.engineMoves = false ∧ s.nextStmt = none ∧ t = s) := by
  unfold step at h
  split at h
  · next he =>
    unfold engineStep at h
    split at h
    · cases h
    · next w hw =>
      split at h
      · next e hd =>
        cases h
        exact .inl ⟨w, e, he, hw, hd, rfl⟩
      · next i hd => exact .inr (.inl ⟨i, ⟨he, w, hw, hd⟩, h⟩)
  · next he =>
    have he : s.engineMoves = false := by simpa using he
    split at h
    · next x hx =>
      unfold hostStep at h
      split at h
      · cases h
        exact .inr (.inr (.inl ⟨⟨he, hx⟩, rfl⟩))
      · next a m =>
        split at h
        · next ha =>
          cases h
          exact .inr (.inr (.inr (.inl ⟨a, m, ⟨he, hx, ha⟩, rfl⟩)))
        · cases h
    · next hx =>
      cases h
      exact .inr (.inr (.inr (.inr ⟨he, hx, rfl⟩)))

theorem step_of_completes {s : State} {i : Instr} (h : s.completes i) : step s = exec i s := by
  obtain ⟨he, w, hw, hd⟩ := h
  unfold step engineStep
  rw [if_pos he, hw]
  dsimp only
  rw [hd]

theorem step_of_resets {s : State} (h : s.resets) : step s = .next s.resetEvent := by
  obtain ⟨he, hn⟩ := h
  unfold step
  rw [if_neg (by simp [he]), hn]
  rfl

theorem step_of_hostAccesses {s : State} {a : Access} {m : Nat} (h : s.hostAccesses a m) :
    step s = .next ((s.countAccess m).perform a) := by
  obtain ⟨he, hn, ha⟩ := h
  unfold step hostStep
  rw [if_neg (by simp [he]), hn]
  exact if_pos ha

/-- An access that its master may not make is refused by name (R195). -/
theorem step_of_not_admits {s : State} {a : Access} {m : Nat} (he : s.engineMoves = false)
    (hn : s.nextStmt = some (.access a m)) (ha : s.admits a m = false) : step s = .refused .multiMaster := by
  unfold step hostStep
  rw [if_neg (by simp [he]), hn]
  simp [ha]

/-- The three kinds of step exclude each other. -/
theorem completes_unique {s : State} {i j : Instr} (hi : s.completes i) (hj : s.completes j) : i = j := by
  obtain ⟨-, w, hw, hd⟩ := hi
  obtain ⟨-, w', hw', hd'⟩ := hj
  rw [hw] at hw'
  cases hw'
  rw [hd] at hd'
  exact Except.ok.inj hd'

theorem not_resets_of_completes {s : State} {i : Instr} (h : s.completes i) : ¬ s.resets :=
  fun hr => absurd (h.1.symm.trans hr.1) (by simp)

/-- Everything a command can do: an error that writes only ERR, a failed INIT, or the command's one state of
success. -/
theorem exec_cases {s t : State} {i : Instr} (h : exec i s = .next t) :
    (t = s.finish t.err ∧ t.err ≠ 0 ∧ t.err.toNat ≤ 7 ∧ ∀ k n, i ≠ .init k n) ∨
    (∃ k n e, i = .init k n ∧ (k ≠ 32 ∨ n ≠ 8) ∧ t = s.initFail e ∧
      e = if k ≠ 32 then .invalidKeyLength else .invalidNonceLength) ∨
    (i = .nop ∧ t = s.finish 0) ∨
    (i = .init 32 8 ∧ t = s.initialised) ∨
    (∃ len, i = .apply len ∧ len ≤ 64 ∧ s.valid = true ∧ s.counterAfter len ≤ maxCounter ∧
      t = s.applied len) ∨
    (i = .ksblock ∧ s.valid = true ∧ s.ksPos = 0 ∧ s.ctr.toNat < maxCounter ∧ t = s.blockDelivered) ∨
    (i = .transform ∧ t = s.transformed) ∨
    (i = .clear ∧ t = s.cleared) := by
  have fails : ∀ c : BitVec 4, c ≠ 0 → c.toNat ≤ 7 → (∀ k n, i ≠ .init k n) → t = s.finish c →
      (t = s.finish t.err ∧ t.err ≠ 0 ∧ t.err.toNat ≤ 7 ∧ ∀ k n, i ≠ .init k n) := by
    rintro c hc h7 hi rfl
    exact ⟨rfl, hc, h7, hi⟩
  cases i with
  | nop => cases h; exact .inr (.inr (.inl ⟨rfl, rfl⟩))
  | init k n =>
    rcases execInit_cases s k n with ⟨hk, e⟩ | ⟨hk, hn, e⟩ | ⟨hk, hn, e⟩ <;>
      have ht := Host.Outcome.next.inj (h.symm.trans e)
    · exact .inr (.inl ⟨k, n, _, rfl, .inl hk, ht, by rw [if_pos hk]⟩)
    · exact .inr (.inl ⟨k, n, _, rfl, .inr hn, ht, by rw [if_neg (by simp [hk])]⟩)
    · subst hk hn
      exact .inr (.inr (.inr (.inl ⟨rfl, ht⟩)))
  | apply len =>
    rcases execApply_cases s len with ⟨_, e⟩ | ⟨_, _, e⟩ | ⟨_, _, _, e⟩ | ⟨hl, hv, hc, e⟩ <;>
      have ht := Host.Outcome.next.inj (h.symm.trans e)
    · exact .inl (fails 5 (by decide) (by decide) (by simp) ht)
    · exact .inl (fails 4 (by decide) (by decide) (by simp) ht)
    · exact .inl (fails 7 (by decide) (by decide) (by simp) ht)
    · exact .inr (.inr (.inr (.inr (.inl ⟨len, rfl, hl, hv, hc, ht⟩))))
  | ksblock =>
    rcases execKsblock_cases s with ⟨_, e⟩ | ⟨_, _, e⟩ | ⟨_, _, _, e⟩ | ⟨hv, hp, hc, e⟩ <;>
      have ht := Host.Outcome.next.inj (h.symm.trans e)
    · exact .inl (fails 4 (by decide) (by decide) (by simp) ht)
    · exact .inl (fails 6 (by decide) (by decide) (by simp) ht)
    · exact .inl (fails 7 (by decide) (by decide) (by simp) ht)
    · exact .inr (.inr (.inr (.inr (.inr (.inl ⟨rfl, hv, hp, hc, ht⟩)))))
  | transform =>
    have ht := Host.Outcome.next.inj (h.symm.trans (execTransform_eq s))
    exact .inr (.inr (.inr (.inr (.inr (.inr (.inl ⟨rfl, ht⟩))))))
  | clear =>
    have ht := Host.Outcome.next.inj (h.symm.trans (execClear_eq s))
    exact .inr (.inr (.inr (.inr (.inr (.inr (.inr ⟨rfl, ht⟩))))))

/-- Every command answers a next state, and ends (R100). -/
theorem exec_answers (i : Instr) (s : State) :
    ∃ t, exec i s = .next t ∧ t.busy = false ∧ t.pending = none := by
  cases i with
  | nop => exact ⟨_, rfl, rfl, rfl⟩
  | clear => exact ⟨_, rfl, rfl, rfl⟩
  | transform => exact ⟨_, rfl, rfl, rfl⟩
  | init k n =>
    rcases execInit_cases s k n with ⟨_, h⟩ | ⟨_, _, h⟩ | ⟨_, _, h⟩ <;> exact ⟨_, h, rfl, rfl⟩
  | apply l =>
    rcases execApply_cases s l with ⟨_, h⟩ | ⟨_, _, h⟩ | ⟨_, _, _, h⟩ | ⟨_, _, _, h⟩ <;>
      exact ⟨_, h, rfl, rfl⟩
  | ksblock =>
    rcases execKsblock_cases s with ⟨_, h⟩ | ⟨_, _, h⟩ | ⟨_, _, _, h⟩ | ⟨_, _, _, h⟩ <;>
      exact ⟨_, h, rfl, rfl⟩

/-- The counter a successful APPLY leaves. -/
theorem applied_ctr (s : State) {len : Nat} (hl : len ≤ 64) (hc : s.counterAfter len ≤ maxCounter) :
    ((s.applied len).ctr.toNat : Int) = s.counterAfter len := by
  have hn := counterAfter_nonneg s hl
  have hm : (maxCounter : Int) = 2 ^ 64 - 1 := rfl
  have e : (s.applied len).ctr = BitVec.ofNat 64 (s.counterAfter len).toNat := by
    rw [State.ctr_eq]
    exact counterOf_blockInput _ _
  rw [e, BitVec.toNat_ofNat, Nat.mod_eq_of_lt (by omega)]
  omega

/-- What no access of the host changes, and what it can do to BUSY and PENDING. -/
theorem perform_keeps (s : State) (a : Access) :
    (s.perform a).cipher = s.cipher ∧ (s.perform a).valid = s.valid ∧
    (s.perform a).ksPos = s.ksPos ∧ (s.perform a).err = s.err ∧
    (s.perform a).dataOut = s.dataOut ∧ (s.perform a).work = s.work ∧
    (s.perform a).keystream = s.keystream ∧
    (((s.perform a).busy = s.busy ∧ (s.perform a).pending = s.pending) ∨
      ((s.perform a).busy = true ∧ (s.perform a).pending.isSome = true)) := by
  rcases perform_cases s a with ⟨r, e⟩ | ⟨v, p, e⟩ | ⟨off, v, r, _, _, _, hb, e⟩ <;> rw [e]
  · simp
  · simp
  · refine ⟨by simp, by simp, by simp, by simp, by simp, by simp, by simp, ?_⟩
    cases r with
    | cmd => exact .inr ⟨rfl, rfl⟩
    | _ => exact .inl ⟨rfl, rfl⟩

/-- An access leaves the turn as it was counted. -/
@[simp] theorem perform_turn (s : State) (a : Access) : (s.perform a).turn = s.turn := by
  rcases perform_cases s a with ⟨r, e⟩ | ⟨v, p, e⟩ | ⟨off, v, r, _, _, _, _, e⟩ <;> rw [e]
  · simp
  · simp
  · cases r <;> rfl

/-- While BUSY = 1 no access changes hardware state (R206, R57). -/
theorem perform_hardware_of_busy {s : State} (a : Access) (hb : s.busy = true) :
    (s.perform a).hardware = s.hardware := by
  rcases perform_cases s a with ⟨r, e⟩ | ⟨v, p, e⟩ | ⟨off, v, r, _, _, _, hn, e⟩
  · rw [e]; rfl
  · rw [e]; rfl
  · exact absurd (hb.symm.trans hn) (by simp)

/-- Everything a step that goes on can be, by its event: a command's error, a failed INIT, each command's
success, the reset, an access of the host, or an idle step. -/
theorem step_events {s t : State} (h : step s = .next t) :
    (∃ c, t = s.finish c ∧ c ≠ 0 ∧ (∀ k n, ¬ s.completes (.init k n)) ∧ ¬ s.completes .clear ∧
      ¬ s.resets) ∨
    (∃ k n e, s.completes (.init k n) ∧ (k ≠ 32 ∨ n ≠ 8) ∧ t = s.initFail e) ∨
    (s.completes .nop ∧ t = s.finish 0) ∨
    (s.completes (.init 32 8) ∧ t = s.initialised) ∨
    (∃ l, s.completes (.apply l) ∧ l ≤ 64 ∧ s.valid = true ∧ s.counterAfter l ≤ maxCounter ∧
      t = s.applied l) ∨
    (s.completes .ksblock ∧ s.valid = true ∧ s.ksPos = 0 ∧ s.ctr.toNat < maxCounter ∧
      t = s.blockDelivered) ∨
    (s.completes .transform ∧ t = s.transformed) ∨
    (s.completes .clear ∧ t = s.cleared) ∨
    (s.resets ∧ t = s.resetEvent) ∨
    (∃ a m, s.hostAccesses a m ∧ t = (s.countAccess m).perform a) ∨
    (s.engineMoves = false ∧ s.nextStmt = none ∧ t = s) := by
  rcases step_cases h with ⟨w, e, he, hw, hd, rfl⟩ | ⟨i, hc, hx⟩ | ⟨hr, rfl⟩ | ⟨a, m, ha, rfl⟩ | ⟨hn, h1, rfl⟩
  · have none : ∀ i, ¬ s.completes i := by
      rintro i ⟨_, w', hw', hd'⟩
      rw [hw] at hw'
      cases hw'
      cases hd.symm.trans hd'
    exact .inl ⟨1, rfl, by decide, fun k n => none _, none _, fun hr => absurd (he.symm.trans hr.1) (by simp)⟩
  · rcases exec_cases hx with ⟨e, h0, -, hi⟩ | ⟨k, n, e, rfl, hkn, ht, -⟩ | ⟨rfl, ht⟩ | ⟨rfl, ht⟩ |
      ⟨l, rfl, hl, hv, hcc, ht⟩ | ⟨rfl, hv, hp, hcc, ht⟩ | ⟨rfl, ht⟩ | ⟨rfl, ht⟩
    · refine .inl ⟨t.err, e, h0, fun k n hk => hi k n (completes_unique hc hk), fun hk => ?_,
        not_resets_of_completes hc⟩
      cases completes_unique hc hk
      have ht : t = s.cleared := (Host.Outcome.next.inj ((execClear_eq s).symm.trans hx)).symm
      rw [ht] at h0
      exact h0 rfl
    · exact .inr (.inl ⟨k, n, e, hc, hkn, ht⟩)
    · exact .inr (.inr (.inl ⟨hc, ht⟩))
    · exact .inr (.inr (.inr (.inl ⟨hc, ht⟩)))
    · exact .inr (.inr (.inr (.inr (.inl ⟨l, hc, hl, hv, hcc, ht⟩))))
    · exact .inr (.inr (.inr (.inr (.inr (.inl ⟨hc, hv, hp, hcc, ht⟩)))))
    · exact .inr (.inr (.inr (.inr (.inr (.inr (.inl ⟨hc, ht⟩))))))
    · exact .inr (.inr (.inr (.inr (.inr (.inr (.inr (.inl ⟨hc, ht⟩)))))))
  · exact .inr (.inr (.inr (.inr (.inr (.inr (.inr (.inr (.inl ⟨hr, rfl⟩))))))))
  · exact .inr (.inr (.inr (.inr (.inr (.inr (.inr (.inr (.inr (.inl ⟨a, m, ha, rfl⟩)))))))))
  · exact .inr (.inr (.inr (.inr (.inr (.inr (.inr (.inr (.inr (.inr ⟨hn, h1, rfl⟩)))))))))

/-! ## Runs -/

/-- A run of `n + 1` steps begins with a step that goes on. -/
theorem run_succ_of_next (M : Host.Core) {s u : M.State} (h : M.step s = .next u) (n : Nat) :
    M.run (n + 1) s = M.run n u := by
  rw [Host.Core.run, h]

theorem next_of_run_succ (M : Host.Core) {s t : M.State} {n : Nat} (h : M.run (n + 1) s = .next t) :
    ∃ u, M.step s = .next u ∧ M.run n u = .next t := by
  rw [Host.Core.run] at h
  split at h
  · exact ⟨_, ‹_›, h⟩
  · cases h
  · cases h

end Sys2Proof.Machine
end

