-- ==== Sys2Proof/Laws/Transform.lean ====
section
/-! SUPPORT. The rotation, and what `qrOn` does word by word. -/

namespace Sys2Proof.Machine

/-- The model's rotation is the library's. -/
theorem rotl_eq_rotateLeft (v : Word) {n : Nat} (h : n < 32) : rotl v n = v.rotateLeft n := by
  rw [BitVec.rotateLeft_def, Nat.mod_eq_of_lt h]
  rfl

/-- The word of `qrOn` at an index: the last of the group's indices that is it decides. -/
theorem qrOn_getElem (W : Block) (a b c d i : Fin 16) :
    (qrOn W (a, b, c, d))[i] =
      let r := quarterRound W[a] W[b] W[c] W[d]
      if i = d then r.2.2.2 else if i = c then r.2.2.1 else if i = b then r.2.1
      else if i = a then r.1 else W[i] := by
  unfold qrOn
  simp only [Fin.getElem_fin, Vector.getElem_set, Fin.ext_iff, eq_comm]

/-- Double-rounds are an iteration. -/
theorem doubleRounds_eq_iterate (n : Nat) (W : Block) : doubleRounds n W = doubleRound^[n] W := by
  induction n generalizing W with
  | zero => rfl
  | succ n ih => rw [Function.iterate_succ_apply, ← ih]; rfl

theorem permute_eq_iterate (x : Block) : permute x = doubleRound^[10] x := doubleRounds_eq_iterate 10 x

theorem transform_getElem (x : Block) (i : Fin 16) : (transform x)[i] = (permute x)[i] + x[i] := by
  simp [transform]

end Sys2Proof.Machine
end

