-- ==== Sys2Proof/Tests/Slice0.lean ====
section
/-! SUPPORT. The model's own tests. Every expected value is from 95_test_vectors.md (by its id) or written out
from the rule named. The witnesses at the end show that the hypotheses of the statements can be met. -/

namespace Sys2Proof.Tests

open Sys2Proof.Machine

/-! ## States to test on -/

/-- The default constant words, written out (R6), with zero key and nonce and counter 0. -/
def zeroKeyBlock : Block :=
  #v[0x61707865, 0x3320646e, 0x79622d32, 0x6b206574, 0, 0, 0, 0, 0, 0, 0, 0, 0, 0, 0, 0]

/-- "Fresh" of 95_test_vectors.md section 2. -/
def fresh : State := { State.reset with valid := true, cipher := zeroKeyBlock }

/-- "Fresh" at the counter value `c`. -/
def atCounter (c : U64) : State := { fresh with cipher := blockInput zeroKeyBlock c }

/-- The state after INIT with zero key and nonce, SIGMA left open. -/
def ready : State := { State.reset with cipher := freshCipher (zeros 8) (zeros 2), valid := true }

/-- A state whose next step completes the command word `w`. -/
def inFlight (s : State) (w : Nat) : State := s.withFetchWord 32 w

/-- A state whose host's next statement is the access `a` of master 0. -/
def asks (s : State) (a : Access) : State := { s with program := [.access a 0], pc := 0 }

/-- A state with a command that waits for one more host access. -/
def waiting (s : State) : State := { s with busy := true, pending := some 0, wait := 1 }

/-- The state of a next outcome; the reset state for another. -/
def next (o : Host.Outcome State Fault Refusal) : State :=
  match o with
  | .next s => s
  | .fault _ => .reset
  | .refused _ => .reset

/-- The state after the command word `w`. -/
def after (s : State) (w : Nat) : State := next (step (inFlight s w))

/-- Keystream block 0 of zero key and nonce (L1.1). -/
def firstBlockWords : Block :=
  #v[0xade0b876, 0x903df1a0, 0xe56a5d40, 0x28bd8653, 0xb819d2bd, 0x1aed8da0, 0xccef36a8, 0xc70d778b,
    0x7c5941da, 0x8d485751, 0x3fe02477, 0x374ad8b8, 0xf4b8436a, 0x1ca11815, 0x69b687c3, 0x8665eeb2]

/-! ## Well-formedness: an ill-formed term for each check -/

theorem test_init_klen_256_is_refused : (Instr.init 256 8).wellFormed = false := by decide
theorem test_init_nlen_256_is_refused : (Instr.init 32 256).wellFormed = false := by decide
theorem test_apply_256_is_refused : (Instr.apply 256).wellFormed = false := by decide
theorem test_fields_of_255_are_well_formed :
    (Instr.init 255 255).wellFormed = true ∧ (Instr.apply 255).wellFormed = true := by decide

/-! ## Decoding: words written bit by bit from R81, as RSV, FB, FA, OP -/

theorem test_decode_nop : decode (0b000000000000#12 ++ 0b00000000#8 ++ 0b00000000#8 ++ 0b0000#4) = .ok .nop := rfl
theorem test_decode_init :
    decode (0b000000000000#12 ++ 0b00001000#8 ++ 0b00100000#8 ++ 0b0001#4) = .ok (.init 32 8) := rfl
theorem test_decode_apply :
    decode (0b000000000000#12 ++ 0b00000000#8 ++ 0b00110110#8 ++ 0b0010#4) = .ok (.apply 54) := rfl
theorem test_decode_ksblock :
    decode (0b000000000000#12 ++ 0b00000000#8 ++ 0b00000000#8 ++ 0b0011#4) = .ok .ksblock := rfl
theorem test_decode_transform :
    decode (0b000000000000#12 ++ 0b00000000#8 ++ 0b00000000#8 ++ 0b0100#4) = .ok .transform := rfl
theorem test_decode_clear :
    decode (0b000000000000#12 ++ 0b00000000#8 ++ 0b00000000#8 ++ 0b0101#4) = .ok .clear := rfl
/-- Each kind of illegal word of R86, by its reason. -/
theorem test_decode_illegal :
    decode 0x00108201 = .error .reservedField ∧ decode 0x80000000 = .error .reservedField ∧
    decode 0x00000010 = .error .unusedField ∧ decode 0x00001000 = .error .unusedField ∧
    decode 0x00000013 = .error .unusedField ∧ decode 0x00000014 = .error .unusedField ∧
    decode 0x00000015 = .error .unusedField ∧ decode 0x000010A2 = .error .unusedField ∧
    decode 0x00000006 = .error .reservedOpcode ∧ decode 0x0000000F = .error .reservedOpcode :=
  ⟨rfl, rfl, rfl, rfl, rfl, rfl, rfl, rfl, rfl, rfl⟩

/-! ## One step of each command -/

/-- V-IN-10. -/
theorem test_nop : (after { fresh with err := 7 } 0x00000000).status = 0x00000002 := by decide +kernel

/-- V-IN-0: KEY_IN bytes 00 to 1f and NONCE_IN bytes 00 .. 00 4a land in S; SIGMA's own words are left open. -/
theorem test_init :
    let t := after { State.reset with
      keyIn := #v[0x03020100, 0x07060504, 0x0b0a0908, 0x0f0e0d0c, 0x13121110, 0x17161514, 0x1b1a1918, 0x1f1e1d1c]
      nonceIn := #v[0x00000000, 0x4a000000] } 0x00008201
    t.cipher.toList.drop 4 = [0x03020100, 0x07060504, 0x0b0a0908, 0x0f0e0d0c, 0x13121110, 0x17161514,
      0x1b1a1918, 0x1f1e1d1c, 0, 0, 0, 0x4a000000] ∧
    t.status = 0x00000002 ∧ t.keyIn = zeros 8 := by decide +kernel

/-- V-IN-5 and V-IN-4: after APPLY 10, INIT with two wrong lengths reports the key's; NLEN = 9 the nonce's. -/
theorem test_init_errors :
    (after { fresh with cipher := blockInput zeroKeyBlock 1, ksPos := 10 } 0x000091f1).status = 0x00000020 ∧
    (after { fresh with cipher := blockInput zeroKeyBlock 1, ksPos := 10 } 0x00009201).status = 0x00000030 := by
  decide +kernel

/-- V-AP-7's second command: a chunk that spans the residue of block 0 and block 1. -/
theorem test_apply_spans_two_blocks :
    let t := after { fresh with cipher := blockInput zeroKeyBlock 1, ksPos := 10 } 0x000003c2
    t.dataOut = #v[0x8653e56a, 0xd2bd28bd, 0x8da0b819, 0x36a81aed, 0x778bccef, 0x41dac70d, 0x57517c59, 0x24778d48,
      0xd8b83fe0, 0x436a374a, 0x1815f4b8, 0x87c31ca1, 0xeeb269b6, 0x079f8665, 0x5155bee7, 0x00000000] ∧
    t.status = 0x00000602 ∧ t.ctr = 2 := by decide +kernel

/-- V-AP-15 and V-AP-16: at the counter limit the residue is served, and one byte more is not. -/
theorem test_apply_at_the_limit :
    let s := { atCounter 0xffffffffffffffff with ksPos := 10 }
    (after s 0x00000362).status = 0x00000002 ∧ (after s 0x00000372).status = 0x00000a72 := by decide +kernel

/-- V-KS-1. -/
theorem test_ksblock :
    (after fresh 0x00000003).dataOut = firstBlockWords ∧ (after fresh 0x00000003).ctr = 1 ∧
    (after fresh 0x00000003).status = 0x00000002 := by decide +kernel

/-- V-KS-3: the low counter word carries into the high word. -/
theorem test_ksblock_carries :
    let t := after (atCounter 0x00000000ffffffff) 0x00000003
    t.cipher[12] = 0 ∧ t.cipher[13] = 1 ∧ t.dataOut[0] = 0x09cde4ac ∧ t.dataOut[15] = 0x1d8bb523 := by
  decide +kernel

/-- V-BT-7 and V-BT-10. -/
theorem test_transform :
    let t := after { State.reset with dataIn := (zeros 16).set 0 1 } 0x00000004
    t.dataOut = #v[0x977e6215, 0x972d0571, 0xcc25a0a8, 0x2f573155, 0xeaca531e, 0x9cea6c47, 0xf7c71127, 0xa78a95bd,
      0x476c953d, 0xec1080e9, 0x82add1ce, 0x9c5b18a8, 0x17f3603f, 0x6931991b, 0x06b6b5f3, 0x6908af85] ∧
    t.status = 0 := by decide +kernel

/-- V-BT-6: one double-round. -/
theorem test_double_round :
    doubleRound ((zeros 16).set 0 1) =
      #v[0x21000001, 0x00100011, 0x10110010, 0x01090890, 0x8c08c084, 0x08889088, 0x80890800, 0x08089801,
        0x12011120, 0x89909109, 0x01111121, 0x01111201, 0x00011101, 0x11001010, 0x01881089, 0x01100121] := by
  decide +kernel

/-- V-IN-9. -/
theorem test_clear :
    let t := after { fresh with cipher := blockInput zeroKeyBlock 1, ksPos := 10, dataIn := Vector.replicate 16 5,
                                dataOut := firstBlockWords } 0x00000005
    t.status = 0 ∧ t.ctr = 0 ∧ t.dataIn = zeros 16 ∧ t.dataOut = zeros 16 := by decide +kernel

/-- V-IN-7: a malformed INIT word zeroises nothing. -/
theorem test_illegal_word :
    let t := after { fresh with cipher := blockInput zeroKeyBlock 1, ksPos := 10, keyIn := Vector.replicate 8 7
                     } 0x00108201
    t.status = 0x00000a12 ∧ t.ctr = 1 ∧ t.keyIn = Vector.replicate 8 7 := by decide +kernel

/-! ## The port -/

/-- V-BUS-1 to V-BUS-4 and V-BUS-7: the priority of R55. -/
theorem test_bus_errors :
    memRead .reset 0x04 1 = .error .badWidth ∧ memWrite .reset 0x41 2 0 = .error .badWidth ∧
    memRead .reset 0x06 4 = .error .misaligned ∧ memRead .reset 0x38 4 = .error .unmapped ∧
    memWrite .reset 0xC0 4 0 = .error .unmapped ∧ memRead (waiting fresh) 0x3C 4 = .error .unmapped :=
  ⟨rfl, rfl, rfl, rfl, rfl, rfl⟩

/-- V-BUS-5: the step records the error with its pc, and the host goes on. -/
theorem test_busy_access :
    let t := next (step (asks (waiting fresh) (.read 0x80 4)))
    t.faults = [⟨.busyAccess, 0⟩] ∧ t.pc = 1 ∧ t.busy = true := by decide +kernel

/-- V-BUS-11: reset while a command is in flight. -/
theorem test_reset_abandons_the_command :
    let t := next (step { waiting fresh with program := [.reset], pending := some 0x00000003 })
    t.hardware = State.reset.hardware := by decide +kernel

/-- R90 to R92: a listing and its statements. -/
theorem test_assemble :
    assemble [.loadNonce 1 2, .init, .label "again", .rdStatus, .bnz 0x08 0xff "again", .reset] =
      some [.access (.write 0x30 4 1) 0, .access (.write 0x34 4 2) 0, .access (.write 0x00 4 0x00008201) 0,
        .access (.branchNonzero 0x04 1 3) 0, .access (.read 0x04 4) 0,
        .access (.branchNonzero 0x08 0xff 4) 0, .reset] := by decide

/-! ## Witnesses: each statement's hypotheses hold together somewhere -/

theorem inFlight_completes (s : State) (w : Nat) {i : Instr}
    (h : decode (BitVec.ofNat 32 (w % 2 ^ 32)) = .ok i) : (inFlight s w).completes i :=
  ⟨rfl, _, rfl, h⟩

theorem exec_goes_on (i : Instr) (s : State) : ∃ t, exec i s = .next t :=
  let ⟨t, h, _⟩ := exec_answers i s
  ⟨t, h⟩

theorem inFlight_goes_on (s : State) (w : Nat) {i : Instr}
    (h : decode (BitVec.ofNat 32 (w % 2 ^ 32)) = .ok i) : ∃ t, step (inFlight s w) = .next t := by
  rw [step_of_completes (inFlight_completes s w h)]
  exact exec_goes_on i _

theorem asks_hostAccesses {s : State} (a : Access) (he : (asks s a).engineMoves = false)
    (ht : s.turn = none) : (asks s a).hostAccesses a 0 :=
  ⟨he, rfl, by simp [State.admits, asks, ht]⟩

/-- The invariant of a state that a successful INIT has made; it is not the reset state. -/
theorem witness_inv_of_a_valid_state : ready.Inv ∧ ready.valid = true :=
  ⟨⟨rfl, by decide, fun _ => ⟨rfl, rfl, rfl, rfl⟩, by decide, by decide, rfl, rfl⟩, rfl⟩

/-- The invariant with a partly used block. -/
theorem witness_inv_of_a_partial_block :
    State.Inv { ready with cipher := blockInput ready.cipher 1, ksPos := 63 } :=
  ⟨rfl, (by intro h; cases h), fun _ => ⟨rfl, rfl, rfl, rfl⟩, by intro _; decide, by decide, rfl, rfl⟩

theorem witness_inv_of_reset : State.reset.Inv :=
  ⟨rfl, fun _ => ⟨rfl, rfl⟩, (by intro h; cases h), by decide, by decide, rfl, rfl⟩

theorem witness_DecodeOfEncodeIsTheInstruction :
    (Instr.init 0 0).WellFormed ∧ (Instr.init 255 255).WellFormed ∧ (Instr.apply 0).WellFormed ∧
    (Instr.apply 255).WellFormed ∧ Instr.nop.WellFormed ∧ Instr.ksblock.WellFormed ∧
    Instr.transform.WellFormed ∧ Instr.clear.WellFormed := by
  simp [Instr.WellFormed, fitsField]

theorem witness_EncodeOfDecodeIsTheWord :
    decode 0x000FF001 = .ok (.init 0 255) ∧ decode 0x00000FF2 = .ok (.apply 255) := ⟨rfl, rfl⟩

/-- One word for each branch of R84, at the edges of its fields. -/
theorem witness_EngineDecodesThePendingWord :
    ∀ w ∈ [0x00100000, 0x00000000, 0x00000010, 0x00001000, 0x00000003, 0x000FF003, 0x00000004, 0x00000FF4,
        0x00000005, 0x00000015, 0x000FFFF1, 0x00000001, 0x00000FF2, 0x00001002, 0x00000006, 0x0000000F],
      (inFlight ready w).engineMoves = true ∧ (inFlight ready w).pending = some (BitVec.ofNat 32 (w % 2 ^ 32)) :=
  fun _ _ => ⟨rfl, rfl⟩

theorem witness_StepRunsTheDecodedInstruction :
    (inFlight ready 0x00000000).completes .nop ∧ (inFlight ready 0x00008201).completes (.init 32 8) ∧
    (inFlight ready 0x00000402).completes (.apply 64) ∧ (inFlight ready 0x00000003).completes .ksblock ∧
    (inFlight ready 0x00000004).completes .transform ∧ (inFlight ready 0x00000005).completes .clear ∧
    decodeTableWord 32 0x00000402 = some (.apply 64) :=
  ⟨inFlight_completes _ _ rfl, inFlight_completes _ _ rfl, inFlight_completes _ _ rfl,
    inFlight_completes _ _ rfl, inFlight_completes _ _ rfl, inFlight_completes _ _ rfl, rfl⟩

theorem witness_CommandIsBusyUntilItsCompletion :
    (asks ready (.write 0x00 4 0x00000003)).busy = false ∧
    (asks ready (.write 0x00 4 0x00000003)).hostAccesses (.write 0x00 4 0x00000003) 0 ∧
    (inFlight ready 0x00000006).engineMoves = true ∧ (inFlight ready 0x00000006).pending = some 0x00000006 ∧
    decode 0x00000003 = .ok .ksblock ∧
    (asks (waiting fresh) (.write 0x00 4 5)).busy = true ∧
    (asks (waiting fresh) (.write 0x00 4 5)).hostAccesses (.write 0x00 4 5) 0 :=
  ⟨rfl, asks_hostAccesses _ rfl rfl, rfl, rfl, rfl, rfl, asks_hostAccesses _ rfl rfl⟩

/-- A command that waits for two more STATUS reads, and a run of three steps from there. -/
def polling : State :=
  { ready with busy := true, pending := some 0, wait := 2
               program := [.access (.read 0x04 4) 0, .access (.read 0x04 4) 0, .access (.read 0x04 4) 0] }

theorem witness_PendingCommandCompletes :
    polling.pending.isSome = true ∧ polling.busy = true ∧
    ∃ t, Host.Core.run core (polling.wait + 1) polling = .next t :=
  ⟨rfl, rfl, _, rfl⟩

theorem witness_IdleStepChangesNothing : ready.busy = false ∧ ready.nextStmt = none := ⟨rfl, rfl⟩

/-- Master 1 asks while master 0 has the turn, with BUSY = 0 and with BUSY = 1, and while nobody has it. -/
theorem witness_InterleavedMastersAreRefused :
    let s := fun a : Access => { ready with program := [.access a 1], turn := some 0 }
    let b := fun a : Access => { waiting ready with program := [.access a 1], turn := some 0 }
    (∀ a, (s a).engineMoves = false ∧ (s a).nextStmt = some (.access a 1) ∧ (s a).turn = some 0 ∧
      (s a).busy = false) ∧
    (∀ a, (b a).engineMoves = false ∧ (b a).nextStmt = some (.access a 1) ∧ (b a).turn = some 0 ∧
      (b a).busy = true) ∧
    (0 : Nat) ≠ 1 ∧ (3 ≠ 4 ∧ (0x08 : Offset) ≠ 0x04 ∧ (0x03 : Offset) ≠ 0x04) ∧
    ((asks ready (.read 0x08 4)).engineMoves = false ∧ (asks ready (.read 0x08 4)).turn = none) :=
  ⟨fun _ => ⟨rfl, rfl, rfl, rfl⟩, fun _ => ⟨rfl, rfl, rfl, rfl⟩, by decide, by decide, rfl, rfl⟩

theorem witness_InitLengths : (31 ≠ 32 ∧ 33 ≠ 32) ∧ (7 ≠ 8 ∧ 9 ≠ 8) ∧
    decode 0x00009201 = .ok (.init 32 9) := ⟨by decide, by decide, rfl⟩

/-- KSBLOCK's four cases, at the counter's edges. -/
theorem witness_KsblockDeliversTheCounterBlock :
    State.reset.valid = false ∧
    ({ ready with ksPos := 1 } : State).ksPos ≠ 0 ∧
    (fresh.valid = true ∧ (atCounter 0xffffffffffffffff).ksPos = 0 ∧
      (atCounter 0xffffffffffffffff).ctr.toNat = 2 ^ 64 - 1) ∧
    (atCounter 0xfffffffffffffffe).ctr.toNat < 2 ^ 64 - 1 := by decide

/-- APPLY's cases: LEN 65, VALID = 0, and the chunks on both sides of the counter limit. -/
theorem witness_ApplyXorsTheChunk :
    64 < 65 ∧ State.reset.valid = false ∧
    ((atCounter 0xffffffffffffffff).streamPos = (64 * (2 ^ 64 - 1) : Nat) ∧
      2 ^ 64 - 1 < (64 * (2 ^ 64 - 1) + 1 + 63) / 64) ∧
    ({ atCounter 0xffffffffffffffff with ksPos := 10 } : State).streamPos =
      (64 * (2 ^ 64 - 2) + 10 : Nat) ∧
    (64 * (2 ^ 64 - 2) + 10 + 54 + 63) / 64 ≤ 2 ^ 64 - 1 ∧
    (ready.valid = true ∧ ready.streamPos = (0 : Nat) ∧ (0 + 64 + 63) / 64 ≤ 2 ^ 64 - 1) := by decide

theorem witness_FirstErrorOfTheRowIsReported :
    (∃ t, exec (.init 31 9) ready = .next t) ∧ (∃ t, exec (.apply 65) State.reset = .next t) ∧
    (∃ t, exec .ksblock ready = .next t) ∧ (∃ t, exec .nop ready = .next t) ∧
    (∃ t, exec .transform ready = .next t) ∧ (∃ t, exec .clear ready = .next t) ∧
    (∃ t, exec (.apply 1) (atCounter 0xffffffffffffffff) = .next t) ∧
    (atCounter 0xffffffffffffffff).streamPos = (64 * (2 ^ 64 - 1) : Nat) ∧
    (inFlight ready 0x00000006).engineMoves = true ∧
    (inFlight ready 0x00000006).pending = some 0x00000006 ∧
    (∃ t, step (inFlight ready 0x00000006) = .next t) :=
  ⟨exec_goes_on _ _, exec_goes_on _ _, exec_goes_on _ _, exec_goes_on _ _, exec_goes_on _ _,
    exec_goes_on _ _, exec_goes_on _ _, by decide, rfl, rfl, _, rfl⟩

/-- An error of a command that is not INIT, and of INIT. -/
theorem witness_FailedCommandWritesOnlyErr :
    ((inFlight ready 0x00000412).engineMoves = true ∧
      (∃ t, step (inFlight ready 0x00000412) = .next t ∧ t.err ≠ 0) ∧
      ∀ k n, ¬ (inFlight ready 0x00000412).completes (.init k n)) ∧
    ((∃ t, step (inFlight ready 0x000081f1) = .next t ∧ t.err ≠ 0) ∧
      (inFlight ready 0x000081f1).completes (.init 31 8)) := by
  refine ⟨⟨rfl, ⟨_, rfl, by decide⟩, fun k n h => ?_⟩, ⟨_, rfl, by decide⟩, inFlight_completes _ _ rfl⟩
  cases completes_unique h (inFlight_completes ready 0x00000412 (i := .apply 65) rfl)

theorem witness_RotlRotatesLeft : 0 < 1 ∧ 31 < 32 ∧ (0 < 7 ∧ 7 < 32) := by decide

theorem witness_QuarterRoundIsTheRule :
    ([0, 4, 8, 12] : List (Fin 16)).Nodup ∧ ([15, 0, 7, 3] : List (Fin 16)).Nodup := by decide

theorem witness_QuarterRoundsOfARoundCommute :
    columnGroups.reverse.Perm columnGroups ∧ diagonalGroups.reverse.Perm diagonalGroups :=
  ⟨columnGroups.reverse_perm, diagonalGroups.reverse_perm⟩

theorem witness_AdvanceIncrementsTheCounter :
    ((atCounter 0xfffffffffffffffe).ctr.toNat < 2 ^ 64 - 1 ∧
      (atCounter 0xfffffffffffffffe).cipher[12] ≠ 0xFFFFFFFF) ∧
    ((atCounter 0x00000000ffffffff).ctr.toNat < 2 ^ 64 - 1 ∧
      (atCounter 0x00000000ffffffff).cipher[12] = 0xFFFFFFFF) := by decide

theorem witness_ExhaustedCounterDeliversNoNewBlock :
    let s := atCounter 0xffffffffffffffff
    let p := { s with ksPos := 10 }
    s.valid = true ∧ s.ctr.toNat = 2 ^ 64 - 1 ∧ s.ksPos = 0 ∧ (1 ≤ 1 ∧ 1 ≤ 64) ∧
    p.valid = true ∧ p.ctr.toNat = 2 ^ 64 - 1 ∧ p.ksPos ≠ 0 ∧
    64 < p.ksPos.toNat + 55 ∧ p.ksPos.toNat + 54 ≤ 64 := by decide

theorem witness_KsblocksCarryIntoTheHighWord :
    (atCounter 0xfffffffffffffffd).valid = true ∧ (atCounter 0xfffffffffffffffd).ksPos = 0 ∧
    (atCounter 0xfffffffffffffffd).ctr.toNat + 2 ≤ 2 ^ 64 - 1 ∧
    ready.valid = true ∧ ready.ksPos = 0 ∧ ready.ctr = 0 := by decide

theorem witness_CounterAndOffsetEncodeThePosition :
    State.Inv { ready with cipher := blockInput ready.cipher 1, ksPos := 63 } ∧
    ∃ t, exec (.init 32 8) ready = .next t :=
  ⟨witness_inv_of_a_partial_block, exec_goes_on _ _⟩

/-- A successful APPLY of 64 bytes at KS_POS = 0, and one that stays inside a block. -/
theorem witness_ApplyMovesThePositionByLen :
    (∃ t, exec (.apply 64) ready = .next t ∧ t.err = 0) ∧ ready.ksPos = 0 ∧
    ∃ t, exec (.apply 1) { ready with cipher := blockInput ready.cipher 1, ksPos := 63 } = .next t ∧
      t.err = 0 :=
  ⟨⟨_, execApply_succeeds ready (by decide) rfl (by decide), rfl⟩, rfl,
    _, execApply_succeeds _ (by decide) rfl (by decide), rfl⟩

/-- Two chunks whose boundary is not a multiple of 64, and the last two bytes before exhaustion. -/
theorem witness_ChunkTransparency :
    (ready.valid = true ∧ ready.streamPos = (0 : Nat) ∧
      (∀ c ∈ [(10, zeros 16), (0, zeros 16), (64, zeros 16)], c.1 ≤ 64) ∧
      (0 + (10 + 0 + 64) + 63) / 64 ≤ 2 ^ 64 - 1) ∧
    (({ atCounter 0xffffffffffffffff with ksPos := 62 } : State).streamPos =
        (64 * (2 ^ 64 - 2) + 62 : Nat) ∧
      (64 * (2 ^ 64 - 2) + 62 + 2 + 63) / 64 ≤ 2 ^ 64 - 1) := by
  refine ⟨⟨rfl, by decide, ?_, by decide⟩, by decide, by decide⟩
  intro c hc
  simp only [List.mem_cons, List.not_mem_nil, or_false] at hc
  rcases hc with rfl | rfl | rfl <;> decide

theorem witness_ApplyTwiceGivesTheDataBack :
    ∃ t r : State, exec (.apply 10) ready = .next t ∧ t.err = 0 ∧ r.cipher = ready.cipher ∧
      r.valid = ready.valid ∧ r.ksPos = ready.ksPos ∧ r.dataIn = t.dataOut :=
  ⟨ready.applied 10, { ready with dataIn := (ready.applied 10).dataOut },
    execApply_succeeds ready (by decide) rfl (by decide), rfl, rfl, rfl, rfl, rfl⟩

theorem witness_CorruptionStaysInItsByte : ∃ t, exec (.apply 10) ready = .next t ∧ t.err = 0 :=
  ⟨_, execApply_succeeds ready (by decide) rfl (by decide), rfl⟩

theorem witness_FullChunkIsWordwiseXor :
    fresh.valid = true ∧ fresh.ksPos = 0 ∧ fresh.ctr.toNat < 2 ^ 64 - 1 ∧
    fresh.dataIn = Vector.replicate 16 0 := by decide

theorem witness_BuffersAreLittleEndian : 0 / 4 < 2 ∧ 7 / 4 < 2 ∧ 7 < 4 * 2 ∧ 63 / 4 < 16 := by decide

/-- A host access of each kind, with an error (BUSY = 1) and without. -/
theorem witness_MemReadIsTheRule :
    ∀ a ∈ [Access.read 0x80 4, .write 0x40 4 1, .readExpect 0x04 0],
      (asks fresh a).hostAccesses a 0 ∧ (asks (waiting fresh) a).hostAccesses a 0 ∧
      ∀ off mask l, a ≠ .branchNonzero off mask l := by
  intro a ha
  refine ⟨asks_hostAccesses a rfl rfl, asks_hostAccesses a rfl rfl, ?_⟩
  intro off mask l e
  subst e
  simp at ha

theorem witness_ReadOnlyIgnoresAndWriteOnlyReadsZero :
    fresh.busy = false ∧
    ∀ off ∈ [(0x04 : Offset), 0x08, 0x0C, 0x80, 0xBC, 0x00, 0x10, 0x34], off.toNat % 4 = 0 := by decide

theorem witness_StatusHasItsFields : fresh.busy = false ∧ (waiting fresh).busy = true := ⟨rfl, rfl⟩

theorem witness_BusyAllowsOnlyStatusReads :
    (waiting fresh).busy = true ∧
    ∀ off ∈ [(0x00 : Offset), 0x04, 0x34, 0x40, 0xBC], off.toNat % 4 = 0 ∧
      (off.toNat < 0x38 ∨ (0x40 ≤ off.toNat ∧ off.toNat < 0xC0)) := by decide

/-- A bus error of each kind of access. -/
theorem witness_BusErrorIsOnlyRecorded :
    ((asks fresh (.read 0x04 1)).hostAccesses (.read 0x04 1) 0 ∧
      memRead (asks fresh (.read 0x04 1)) 0x04 1 = .error .badWidth) ∧
    ((asks fresh (.write 0x41 4 0)).hostAccesses (.write 0x41 4 0) 0 ∧
      memWrite (asks fresh (.write 0x41 4 0)) 0x41 4 0 = .error .misaligned) ∧
    ((asks fresh (.readExpect 0xC0 0)).hostAccesses (.readExpect 0xC0 0) 0 ∧
      memRead (asks fresh (.readExpect 0xC0 0)) 0xC0 4 = .error .unmapped) ∧
    ((asks (waiting fresh) (.branchNonzero 0x08 1 0)).hostAccesses (.branchNonzero 0x08 1 0) 0 ∧
      memRead (asks (waiting fresh) (.branchNonzero 0x08 1 0)) 0x08 4 = .error .busyAccess) :=
  ⟨⟨asks_hostAccesses _ rfl rfl, rfl⟩, ⟨asks_hostAccesses _ rfl rfl, rfl⟩,
    ⟨asks_hostAccesses _ rfl rfl, rfl⟩, asks_hostAccesses _ rfl rfl, rfl⟩

/-- A read, one with an expectation that fails, a BNZ that leaves its loop, one that stays, and one whose read is a bus error. -/
theorem witness_ReadsHaveNoSideEffects :
    ((asks fresh (.read 0x08 4)).hostAccesses (.read 0x08 4) 0 ∧
      memRead ((asks fresh (.read 0x08 4)).countAccess 0) 0x08 4 = .ok 0) ∧
    ((asks fresh (.readExpect 0x04 7)).hostAccesses (.readExpect 0x04 7) 0 ∧
      memRead ((asks fresh (.readExpect 0x04 7)).countAccess 0) 0x04 4 = .ok 2) ∧
    ((asks fresh (.branchNonzero 0x04 1 0)).hostAccesses (.branchNonzero 0x04 1 0) 0 ∧
      memRead ((asks fresh (.branchNonzero 0x04 1 0)).countAccess 0) 0x04 4 = .ok 2 ∧ (2 : Word) &&& 1 = 0) ∧
    ((asks fresh (.branchNonzero 0x04 2 0)).hostAccesses (.branchNonzero 0x04 2 0) 0 ∧
      memRead ((asks fresh (.branchNonzero 0x04 2 0)).countAccess 0) 0x04 4 = .ok 2 ∧ (2 : Word) &&& 2 ≠ 0) ∧
    ((asks fresh (.branchNonzero 0x38 1 0)).hostAccesses (.branchNonzero 0x38 1 0) 0 ∧
      memRead (asks fresh (.branchNonzero 0x38 1 0)) 0x38 4 = .error .unmapped) :=
  ⟨⟨asks_hostAccesses _ rfl rfl, rfl⟩, ⟨asks_hostAccesses _ rfl rfl, rfl⟩,
    ⟨asks_hostAccesses _ rfl rfl, rfl, by decide⟩, ⟨asks_hostAccesses _ rfl rfl, rfl, by decide⟩,
    asks_hostAccesses _ rfl rfl, rfl⟩

theorem witness_DataInReadsBackWhatWasWritten :
    (0x40 ≤ (0x40 : Offset).toNat ∧ (0x40 : Offset).toNat < 0x80 ∧ ∃ t, memWrite fresh 0x40 4 5 = .ok t) ∧
    (0x40 ≤ (0x7C : Offset).toNat ∧ (0x7C : Offset).toNat < 0x80 ∧ ∃ t, memWrite fresh 0x7C 4 5 = .ok t) ∧
    (0x44 : Offset) ≠ 0x40 :=
  ⟨⟨by decide, by decide, _, rfl⟩, ⟨by decide, by decide, _, rfl⟩, by decide⟩

/-- Where BASE_ADDR is 0 no address is below the window; one above it always exists. -/
theorem witness_WindowHas256Offsets :
    Config.baseAddr + 0x100 < Config.baseAddr ∨ Config.baseAddr + 0x100 ≤ Config.baseAddr + 0x100 :=
  .inr (Nat.le_refl _)

/-- Two devices that differ in the key, and a host step of both; and a refused one. -/
theorem witness_HostNeverReadsKeyMaterial :
    let s := asks ready (.read 0x80 4)
    let t := { s with cipher := freshCipher (Vector.replicate 8 1) (zeros 2), keyIn := Vector.replicate 8 3 }
    sameButSecrets s t ∧ s.keyIn ≠ t.keyIn ∧ s.engineMoves = false ∧ (∃ s', step s = .next s') ∧
    let r := { ready with program := [.access (.write 0x40 4 0) 1], turn := some 0 }
    sameButSecrets r r ∧ r.engineMoves = false ∧ step r = .refused .multiMaster :=
  ⟨⟨rfl, rfl, rfl⟩, by decide, rfl, ⟨_, rfl⟩, ⟨rfl, rfl, rfl⟩, rfl, rfl⟩

theorem witness_ResetZeroisesTheHardware :
    ({ waiting fresh with program := [.reset] } : State).resets := ⟨rfl, rfl⟩

theorem witness_StepKeepsTheInvariant :
    ready.Inv ∧ (∃ t, step ready = .next t) ∧ (inFlight ready 0x00000402).Inv ∧
    ∃ t, step (inFlight ready 0x00000402) = .next t :=
  ⟨witness_inv_of_a_valid_state.1, ⟨_, rfl⟩,
    ⟨rfl, by decide, fun _ => ⟨rfl, rfl, rfl, rfl⟩, by decide, by decide, rfl, rfl⟩,
    inFlight_goes_on ready 0x00000402 (i := .apply 64) rfl⟩

theorem witness_DroppedStateIsZeroised :
    (∃ t, step (inFlight ready 0x00000005) = .next t ∧ (inFlight ready 0x00000005).valid = true ∧
      t.valid = false) ∧
    (∃ t, step (inFlight .reset 0x00000004) = .next t ∧ (inFlight .reset 0x00000004).valid = false ∧
      (inFlight .reset 0x00000004).cipher = Vector.replicate 16 0 ∧
      (inFlight .reset 0x00000004).ksPos = 0 ∧ t.valid = false) :=
  ⟨⟨_, rfl, rfl, rfl⟩, _, rfl, rfl, rfl, rfl, rfl⟩

theorem witness_KeyAndNonceAreImmutable :
    let s := inFlight ready 0x00000402
    s.Inv ∧ s.valid = true ∧ (∃ t, step s = .next t) ∧ (∀ k n, ¬ s.completes (.init k n)) ∧
    ¬ s.completes .clear ∧ ¬ s.resets := by
  have hc := inFlight_completes ready 0x00000402 (i := .apply 64) rfl
  exact ⟨witness_StepKeepsTheInvariant.2.2.1, rfl, witness_StepKeepsTheInvariant.2.2.2,
    fun k n h => absurd (completes_unique h hc) (by simp), fun h => absurd (completes_unique h hc) (by simp),
    not_resets_of_completes hc⟩

theorem witness_ValidFollowsTheLifecycle :
    (∃ t, step (inFlight .reset 0x00008201) = .next t ∧ (inFlight .reset 0x00008201).valid = false ∧
      t.valid = true) ∧
    (∃ t, step (inFlight ready 0x000081f1) = .next t ∧ (inFlight ready 0x000081f1).valid = true ∧
      t.valid = false) ∧
    (inFlight ready 0x00008201).completes (.init 32 8) ∧ (inFlight ready 0x00000005).completes .clear ∧
    (∃ t, step { ready with program := [.reset] } = .next t ∧ t.valid = false) ∧
    (inFlight ready 0x000081f1).completes (.init 31 8) ∧ (inFlight ready 0x00009201).completes (.init 32 9) :=
  ⟨⟨_, rfl, rfl, rfl⟩, ⟨_, rfl, rfl, rfl⟩, inFlight_completes _ _ rfl, inFlight_completes _ _ rfl,
    ⟨_, rfl, rfl⟩, inFlight_completes _ _ rfl, inFlight_completes _ _ rfl⟩

theorem witness_DataOutHasFewWriters :
    ∃ t, step (inFlight { fresh with dataOut := Vector.replicate 16 1 } 0x00000005) = .next t ∧
      t.dataOut ≠ Vector.replicate 16 1 :=
  ⟨_, rfl, by decide⟩

/-- The first and the last word of DATA_IN, written by the host. -/
theorem witness_DataInHasFewWriters :
    (∃ t, step (asks fresh (.write 0x40 4 5)) = .next t ∧ t.dataIn[0] ≠ fresh.dataIn[0]) ∧
    (∃ t, step (asks fresh (.write 0x7C 4 5)) = .next t ∧ t.dataIn[15] ≠ fresh.dataIn[15]) :=
  ⟨⟨_, rfl, by decide⟩, _, rfl, by decide⟩

theorem witness_StagingIsZeroisedAfterUse :
    (inFlight ready 0x000081f1).completes (.init 31 8) ∧ (inFlight ready 0x00000005).completes .clear ∧
    ({ ready with program := [.reset] } : State).resets ∧
    ((∃ t, step (asks fresh (.write 0x10 4 5)) = .next t ∧ t.keyIn ≠ fresh.keyIn) ∧
      (∃ t, step (asks fresh (.write 0x34 4 5)) = .next t ∧ t.nonceIn ≠ fresh.nonceIn) ∧
      (asks fresh (.write 0x10 4 5)).engineMoves = false ∧ ¬ (asks fresh (.write 0x10 4 5)).resets) :=
  ⟨inFlight_completes _ _ rfl, inFlight_completes _ _ rfl, ⟨rfl, rfl⟩, ⟨_, rfl, by decide⟩,
    ⟨_, rfl, by decide⟩, rfl, fun h => by cases h.2⟩

theorem witness_FaultRecordsAreNeverRemoved :
    ∃ t, step (asks { fresh with faults := [⟨.unmapped, 7⟩] } (.read 0x04 1)) = .next t ∧
      t.faults ≠ [⟨.unmapped, 7⟩] :=
  ⟨_, rfl, by decide⟩

/-- An accepted write to each writable group, at its first or last offset. -/
theorem witness_AcceptedWriteIsMemWrite :
    ∀ off ∈ [(0x00 : Offset), 0x10, 0x2C, 0x30, 0x34, 0x40, 0x7C, 0x80],
      (asks fresh (.write off 4 5)).hostAccesses (.write off 4 5) 0 ∧
      ∃ u, memWrite ((asks fresh (.write off 4 5)).countAccess 0) off 4 5 = .ok u := by
  intro off ho
  refine ⟨asks_hostAccesses _ rfl rfl, ?_⟩
  simp only [List.mem_cons, List.not_mem_nil, or_false] at ho
  rcases ho with rfl | rfl | rfl | rfl | rfl | rfl | rfl | rfl <;> exact ⟨_, rfl⟩

end Sys2Proof.Tests
end

section
/-! SUPPORT. The port, the ENGINE's step, the STATUS word and the hardware part of a state: rules that
the statements of 10_state.md cite, beside those of Laws/. -/

namespace Sys2Proof.Machine

/-! ## The port -/

/-- A mapped, aligned 4-byte write lands while BUSY = 0 (R59). -/
theorem memWrite_of_idle {s : State} {off : Offset} {r : Reg} (v : Word) (ha : off.toNat % 4 = 0)
    (hr : regAt off = some r) (hb : s.busy = false) : memWrite s off 4 v = .ok (s.writeReg v r) := by
  unfold memWrite
  rw [portCheck_mapped s _ ha hr, hb]
  rfl

/-- A mapped, aligned 4-byte read answers while BUSY = 0, and of STATUS always (R58, R206). -/
theorem memRead_of_readable {s : State} {off : Offset} {r : Reg} (ha : off.toNat % 4 = 0)
    (hr : regAt off = some r) (hb : s.busy = true → r = .status) :
    memRead s off 4 = .ok (s.readReg r) := by
  unfold memRead
  rw [portCheck_mapped s _ ha hr, if_neg (by simpa using hb)]

theorem memRead_status (s : State) : memRead s 0x04 4 = .ok s.status :=
  memRead_of_readable (r := .status) (by decide) rfl fun _ => rfl

/-- The step of a write that the port lets through is that write and an `accepted` answer. -/
theorem perform_write_of_ok {s t : State} {off : Offset} {n : Nat} {v : Word}
    (h : memWrite s off n v = .ok t) :
    s.perform (.write off n v) = t.respond .accepted (s.pc + 1) := by
  show s.hostWrite off n v = _
  unfold State.hostWrite
  rw [h]

/-! ## The ENGINE -/

/-- A step of the ENGINE with an illegal word writes ERR = 1 and ends the command (R84, R86). -/
theorem step_of_illegal {s : State} {w : Word} {e : DecodeError} (he : s.engineMoves = true)
    (hw : s.pending = some w) (hd : decode w = .error e) : step s = .next (s.finish 1) := by
  unfold step engineStep
  rw [if_pos he, hw]
  dsimp only
  rw [hd]
  rfl

theorem exec_of_completes {s t : State} {i : Instr} (hc : s.completes i) (h : step s = .next t) :
    exec i s = .next t :=
  (step_of_completes hc).symm.trans h

/-! ## The hardware part -/

theorem busy_eq_of_hardware_eq {s t : State} (h : t.hardware = s.hardware) : t.busy = s.busy :=
  congrArg Hardware.busy h

theorem pending_eq_of_hardware_eq {s t : State} (h : t.hardware = s.hardware) : t.pending = s.pending :=
  congrArg Hardware.pending h

/-! ## STATUS (R31) -/

theorem status_of_idle {s : State} (hb : s.busy = false) : s.status = s.statusFields :=
  if_neg (by simp [hb])

theorem status_of_busy {s : State} (hb : s.busy = true) : s.status = Config.freeStatus s.draws ++ 1#1 :=
  if_pos hb

/-- The fields of STATUS as one number. -/
theorem statusFields_toNat (s : State) : s.statusFields.toNat =
    s.busy.toNat + 2 * s.valid.toNat + 16 * s.err.toNat + 256 * s.ksPos.toNat := by
  have hb := s.busy.toNat_lt
  have hv := s.valid.toNat_lt
  have he := s.err.isLt
  unfold State.statusFields
  simp only [BitVec.toNat_append, BitVec.toNat_ofNat, BitVec.toNat_ofBool]
  rw [← Nat.shiftLeft_add_eq_or_of_lt (by omega), ← Nat.shiftLeft_add_eq_or_of_lt (by omega),
    ← Nat.shiftLeft_add_eq_or_of_lt (by omega), ← Nat.shiftLeft_add_eq_or_of_lt (by omega),
    ← Nat.shiftLeft_add_eq_or_of_lt (by omega)]
  simp only [Nat.shiftLeft_eq]
  omega

theorem getLsbD_eq_of_div_mod {w : Word} {i : Nat} {b : Bool} (h : w.toNat / 2 ^ i % 2 = b.toNat) :
    w.getLsbD i = b := by
  rw [← BitVec.testBit_toNat, Nat.testBit_eq_decide_div_mod_eq, h]
  cases b <;> rfl

theorem extractLsb'_eq_of_div_mod {w : Word} {start len : Nat} {x : BitVec len}
    (h : w.toNat / 2 ^ start % 2 ^ len = x.toNat) : w.extractLsb' start len = x := by
  apply BitVec.eq_of_toNat_eq
  rw [BitVec.extractLsb'_toNat, Nat.shiftRight_eq_div_pow, h]

/-- Each field of STATUS stands at its bits. -/
theorem statusFields_fields (s : State) :
    s.statusFields.getLsbD 0 = s.busy ∧ s.statusFields.getLsbD 1 = s.valid ∧
    s.statusFields.extractLsb' 2 2 = 0#2 ∧ s.statusFields.extractLsb' 4 4 = s.err ∧
    s.statusFields.extractLsb' 8 6 = s.ksPos ∧ s.statusFields.extractLsb' 14 18 = 0#18 := by
  have hn := statusFields_toNat s
  have hb := s.busy.toNat_lt
  have hv := s.valid.toNat_lt
  have he := s.err.isLt
  have hk := s.ksPos.isLt
  have h2 : (0#2).toNat = 0 := rfl
  have h18 : (0#18).toNat = 0 := rfl
  refine ⟨getLsbD_eq_of_div_mod ?_, getLsbD_eq_of_div_mod ?_, extractLsb'_eq_of_div_mod ?_,
    extractLsb'_eq_of_div_mod ?_, extractLsb'_eq_of_div_mod ?_, extractLsb'_eq_of_div_mod ?_⟩ <;> omega

/-- After reset STATUS reads 0 (R43). -/
theorem status_resetEvent (s : State) : s.resetEvent.status = 0 :=
  (status_of_idle rfl).trans (BitVec.eq_of_toNat_eq (statusFields_toNat s.resetEvent))

theorem getLsbD_zero_status_of_busy {s : State} (hb : s.busy = true) : s.status.getLsbD 0 = true := by
  rw [status_of_busy hb]
  exact BitVec.getLsbD_append

end Sys2Proof.Machine
end

section
/-! SUPPORT. The lifecycle of the CipherState (R23 to R26): every step creates it, drops it, or keeps key and
nonce and moves the counter up. -/

namespace Sys2Proof.Machine

/-- Of S, `KSIN(c)` differs from S in words 12 and 13 only (R141). -/
theorem blockInput_getElem_of_ne (S : Block) (c : U64) {i : Fin 16} (h12 : i ≠ 12) (h13 : i ≠ 13) :
    (blockInput S c)[i] = S[i] := by
  fin_cases i
  any_goals rfl
  · exact absurd rfl h12
  · exact absurd rfl h13

/-- The next step drops the CipherState: CLEAR, reset, or an INIT with a wrong length (R24). -/
def State.drops (s : State) : Prop :=
  s.completes .clear ∨ s.resets ∨ ∃ klen nlen, s.completes (.init klen nlen) ∧ (klen ≠ 32 ∨ nlen ≠ 8)

/-- From `s` to `t` VALID, key and nonce are kept and the counter does not decrease; while there is no
CipherState nothing of S and KS_POS moves. -/
structure State.Retains (s t : State) : Prop where
  valid_eq : t.valid = s.valid
  cipher_eq : t.cipher = blockInput s.cipher t.ctr
  ctr_le : s.ctr.toNat ≤ t.ctr.toNat
  still : s.valid = false → t.cipher = s.cipher ∧ t.ksPos = s.ksPos

theorem retains_of_eq {s t : State} (hv : t.valid = s.valid) (hS : t.cipher = s.cipher)
    (hp : t.ksPos = s.ksPos) : s.Retains t where
  valid_eq := hv
  cipher_eq := by rw [State.ctr_eq, hS, blockInput_counterOf]
  ctr_le := by rw [State.ctr_eq, State.ctr_eq, hS]
  still _ := ⟨hS, hp⟩

/-- A successful command that writes S moves its counter up and keeps its other words. -/
theorem retains_of_counter {s t : State} {c : U64} (hv : s.valid = true) (hv' : t.valid = true)
    (hS : t.cipher = blockInput s.cipher c) (hc : s.ctr.toNat ≤ t.ctr.toNat) : s.Retains t where
  valid_eq := hv'.trans hv.symm
  cipher_eq := by rw [State.ctr_eq, hS, counterOf_blockInput]
  ctr_le := hc
  still h := absurd (h.symm.trans hv) (by decide)

theorem retains_applied {s : State} {len : Nat} (hl : len ≤ 64) (hv : s.valid = true)
    (hc : s.counterAfter len ≤ maxCounter) : s.Retains (s.applied len) := by
  have hctr := applied_ctr s hl hc
  refine retains_of_counter hv hv rfl ?_
  rcases counterAfter_cases s hl with ⟨e, _⟩ | ⟨e, _⟩ <;> omega

theorem blockDelivered_ctr {s : State} (hc : s.ctr.toNat < maxCounter) :
    s.blockDelivered.ctr.toNat = s.ctr.toNat + 1 := by
  have hm : maxCounter = 2 ^ 64 - 1 := rfl
  have e : s.blockDelivered.ctr = BitVec.ofNat 64 (s.ctr.toNat + 1) := by
    rw [State.ctr_eq]
    exact counterOf_blockInput _ _
  rw [e, BitVec.toNat_ofNat, Nat.mod_eq_of_lt (by omega)]

theorem retains_blockDelivered {s : State} (hv : s.valid = true) (hc : s.ctr.toNat < maxCounter) :
    s.Retains s.blockDelivered :=
  retains_of_counter hv hv rfl (by rw [blockDelivered_ctr hc]; omega)

theorem retains_access (s : State) (a : Access) (m : Nat) :
    s.Retains ((s.countAccess m).perform a) := by
  obtain ⟨hS, hv, hp, -⟩ := perform_keeps (s.countAccess m) a
  exact retains_of_eq hv hS hp

/-- Everything a step can do to the CipherState. -/
theorem step_lifecycle {s t : State} (h : step s = .next t) :
    s.completes (.init 32 8) ∨ s.drops ∨ s.Retains t := by
  rcases step_events h with ⟨c, rfl, -⟩ | ⟨k, n, e, hc, hkn, -⟩ | ⟨-, rfl⟩ | ⟨hc, -⟩ |
    ⟨l, -, hl, hv, hle, rfl⟩ | ⟨-, hv, -, hlt, rfl⟩ | ⟨-, rfl⟩ | ⟨hc, -⟩ | ⟨hr, -⟩ | ⟨a, m, -, rfl⟩ |
    ⟨-, -, rfl⟩
  · exact .inr (.inr (retains_of_eq rfl rfl rfl))
  · exact .inr (.inl (.inr (.inr ⟨k, n, hc, hkn⟩)))
  · exact .inr (.inr (retains_of_eq rfl rfl rfl))
  · exact .inl hc
  · exact .inr (.inr (retains_applied hl hv hle))
  · exact .inr (.inr (retains_blockDelivered hv hlt))
  · exact .inr (.inr (retains_of_eq rfl rfl rfl))
  · exact .inr (.inl (.inl hc))
  · exact .inr (.inl (.inr (.inl hr)))
  · exact .inr (.inr (retains_access s a m))
  · exact .inr (.inr (retains_of_eq rfl rfl rfl))

/-- A successful INIT makes VALID 1 (R103). -/
theorem valid_of_init {s t : State} (hc : s.completes (.init 32 8)) (h : step s = .next t) :
    t.valid = true := by
  cases exec_of_completes hc h
  rfl

/-- A step that drops the CipherState zeroises it (R24). -/
theorem zeroised_of_drops {s t : State} (hd : s.drops) (h : step s = .next t) :
    t.valid = false ∧ t.cipher = zeros 16 ∧ t.ksPos = 0 := by
  rcases hd with hc | hr | ⟨k, n, hc, hkn⟩
  · cases exec_of_completes hc h
    exact ⟨rfl, rfl, rfl⟩
  · cases h.symm.trans (step_of_resets hr)
    exact ⟨rfl, rfl, rfl⟩
  · have hx : execInit k n s = .next t := exec_of_completes hc h
    rcases execInit_cases s k n with ⟨-, e⟩ | ⟨-, -, e⟩ | ⟨hk, hn, -⟩
    · cases hx.symm.trans e
      exact ⟨rfl, rfl, rfl⟩
    · cases hx.symm.trans e
      exact ⟨rfl, rfl, rfl⟩
    · omega

/-- A step after which there is no CipherState has dropped it, or there was none. -/
theorem drops_or_retains_of_invalid {s t : State} (h : step s = .next t) (hv : t.valid = false) :
    s.drops ∨ s.Retains t :=
  (step_lifecycle h).resolve_left fun hc => absurd (hv.symm.trans (valid_of_init hc h)) (by decide)

end Sys2Proof.Machine
end

section
/-! The statements of the family 10_state.md. -/

open Sys2Proof Sys2Proof.Machine

/-- Settles O8: the accepted write is `startCommand`, an access with BUSY = 1 leaves the hardware alone, and
every command ends in its one completion step. -/
theorem commandIsBusyUntilItsCompletion : Obligations.CommandIsBusyUntilItsCompletion := by
  unfold Obligations.CommandIsBusyUntilItsCompletion
  refine ⟨fun s m v hb ha => ?_, fun s a m hb ha => ?_, fun s w he hw => ?_⟩
  · have hw : memWrite (s.countAccess m) 0x00 4 v = .ok ((s.countAccess m).startCommand v) :=
      memWrite_of_idle (r := .cmd) v (by decide) rfl hb
    refine ⟨_, step_of_hostAccesses ha, ?_⟩
    rw [perform_write_of_ok hw]
    exact ⟨rfl, rfl, rfl⟩
  · have hh : ((s.countAccess m).perform a).hardware = s.hardware :=
      perform_hardware_of_busy (s := s.countAccess m) a hb
    exact ⟨_, step_of_hostAccesses ha, (busy_eq_of_hardware_eq hh).trans hb,
      pending_eq_of_hardware_eq hh, hh⟩
  · cases hd : decode w with
    | error e => exact ⟨s.finish 1, step_of_illegal he hw hd, rfl, rfl, fun i hi => nomatch hi⟩
    | ok i =>
      obtain ⟨t, ht, hb, hp⟩ := exec_answers i s
      refine ⟨t, (step_of_completes ⟨he, w, hw, hd⟩).trans ht, hb, hp, ?_⟩
      rintro j ⟨⟩
      exact ht

/-- Settles O42: the fields are those of `statusFields`; while BUSY = 1 the low bit is that of the draw's
word. -/
theorem statusHasItsFields : Obligations.StatusHasItsFields := by
  unfold Obligations.StatusHasItsFields
  refine fun s => ⟨fun hb => ⟨fun v => ?_, ?_⟩, fun hb => ?_⟩
  · exact memWrite_of_idle (r := .status) v (by decide) rfl hb
  · obtain ⟨hbusy, hfields⟩ := statusFields_fields s
    exact ⟨s.statusFields, status_of_idle hb ▸ memRead_status s, hbusy.trans hb, hfields⟩
  · exact ⟨s.status, memRead_status s, getLsbD_zero_status_of_busy hb⟩

/-- Settles O49: `resetEvent` takes the hardware of `State.reset`, and the views read it. -/
theorem resetZeroisesTheHardware : Obligations.ResetZeroisesTheHardware := by
  unfold Obligations.ResetZeroisesTheHardware
  refine ⟨rfl, rfl, fun s hr => ⟨s.resetEvent, step_of_resets hr, rfl, rfl, ?_, ?_, ?_⟩⟩
  · rw [memRead_status, status_resetEvent]
  · exact memRead_of_readable (s := s.resetEvent) (r := .ctrLo) (by decide) rfl nofun
  · exact memRead_of_readable (s := s.resetEvent) (r := .ctrHi) (by decide) rfl nofun

/-- Settles O53: a step to VALID = 0 drops the CipherState, or VALID was 0 and S and KS_POS stand still. -/
theorem droppedStateIsZeroised : Obligations.DroppedStateIsZeroised := by
  unfold Obligations.DroppedStateIsZeroised
  refine ⟨rfl, rfl, fun s t h hs ht => ?_, fun s t h hs hS hp ht => ?_⟩
  · rcases drops_or_retains_of_invalid h ht with hd | hr
    · exact (zeroised_of_drops hd h).2
    · exact absurd (ht.symm.trans (hr.valid_eq.trans hs)) (by decide)
  · rcases drops_or_retains_of_invalid h ht with hd | hr
    · exact (zeroised_of_drops hd h).2
    · obtain ⟨hS', hp'⟩ := hr.still hs
      exact ⟨hS'.trans hS, hp'.trans hp⟩

/-- Settles O54: a step that is no INIT, CLEAR or reset retains the CipherState. -/
theorem keyAndNonceAreImmutable : Obligations.KeyAndNonceAreImmutable := by
  unfold Obligations.KeyAndNonceAreImmutable
  intro s t hinv hv h
  refine ⟨hinv.valid_holds_sigma hv, fun hinit hclear hreset => ?_⟩
  rcases step_lifecycle h with hc | (hc | hr | ⟨k, n, hc, -⟩) | hr
  · exact absurd hc (hinit 32 8)
  · exact absurd hc hclear
  · exact absurd hr hreset
  · exact absurd hc (hinit k n)
  · refine ⟨hr.valid_eq.trans hv, hr.ctr_le, fun i h12 h13 => ?_⟩
    rw [hr.cipher_eq, blockInput_getElem_of_ne _ _ h12 h13]

/-- Settles O55: VALID changes only where `step_lifecycle` says that a CipherState is created or dropped. -/
theorem validFollowsTheLifecycle : Obligations.ValidFollowsTheLifecycle := by
  unfold Obligations.ValidFollowsTheLifecycle
  refine ⟨fun s t h hs ht => ?_, fun s t h hs ht => ?_, fun s t h hc => valid_of_init hc h,
    fun s t h hd => ?_, fun s t k n h hc hkn => ?_⟩
  · rcases step_lifecycle h with hc | hd | hr
    · exact hc
    · exact absurd (ht.symm.trans (zeroised_of_drops hd h).1) (by decide)
    · exact absurd (ht.symm.trans (hr.valid_eq.trans hs)) (by decide)
  · rcases drops_or_retains_of_invalid h ht with hd | hr
    · exact hd
    · exact absurd (ht.symm.trans (hr.valid_eq.trans hs)) (by decide)
  · exact (zeroised_of_drops (hd.imp id .inl) h).1
  · exact (zeroised_of_drops (.inr (.inr ⟨k, n, hc, hkn⟩)) h).1

end

section
/-! SUPPORT. The byte lanes of a word as numbers, the address map by ranges of offsets, and what the port and
the step make of each check: rules that the statements of 20_memory.md cite, beside those of Laws/. -/

namespace Sys2Proof.Machine

/-! ## Byte lanes as numbers (R52) -/

theorem byteOf_toNat {n : Nat} (B : Vector Word n) {j : Nat} (h : j / 4 < n) :
    (byteOf B j).toNat = B[j / 4].toNat / 2 ^ (8 * (j % 4)) % 256 := by
  rw [byteOf_of_lt B h, BitVec.extractLsb'_toNat, Nat.shiftRight_eq_div_pow]

/-- A word is the little-endian sum of its four bytes. -/
theorem wordOfBytes_toNat (b0 b1 b2 b3 : Byte) : (wordOfBytes b0 b1 b2 b3).toNat =
    b0.toNat + 2 ^ 8 * b1.toNat + 2 ^ 16 * b2.toNat + 2 ^ 24 * b3.toNat := by
  unfold wordOfBytes
  simp only [BitVec.toNat_append]
  rw [← Nat.shiftLeft_add_eq_or_of_lt b2.isLt, ← Nat.shiftLeft_add_eq_or_of_lt b1.isLt,
    ← Nat.shiftLeft_add_eq_or_of_lt b0.isLt]
  simp only [Nat.shiftLeft_eq]
  omega

/-- Within its bounds a write to a buffer needs no check. -/
theorem set_eq_setIfInBounds {n i : Nat} (B : Vector Word n) (h : i < n) (v : Word) :
    B.set i v = B.setIfInBounds i v :=
  Vector.ext fun j hj => by rw [Vector.getElem_set, Vector.getElem_setIfInBounds hj]

/-! ## The address map by ranges (R54) -/

theorem offset_eq_of_toNat {off : Offset} {k : Nat} (h : off.toNat = k) : off = BitVec.ofNat 8 k := by
  rw [← h, BitVec.ofNat_toNat, BitVec.setWidth_eq]

theorem regAt_keyIn {off : Offset} (h : 0x10 ≤ off.toNat) (h' : off.toNat < 0x30) :
    regAt off = some (.keyIn ⟨(off.toNat - 0x10) / 4, by omega⟩) := by
  dsimp only [regAt]
  rw [if_neg (by omega), if_neg (by omega), if_neg (by omega), if_neg (by omega), dif_pos h']

theorem regAt_nonceIn {off : Offset} (h : 0x30 ≤ off.toNat) (h' : off.toNat < 0x38) :
    regAt off = some (.nonceIn ⟨(off.toNat - 0x30) / 4, by omega⟩) := by
  dsimp only [regAt]
  rw [if_neg (by omega), if_neg (by omega), if_neg (by omega), if_neg (by omega), dif_neg (by omega),
    dif_pos h']

theorem regAt_dataIn {off : Offset} (h : 0x40 ≤ off.toNat) (h' : off.toNat < 0x80) :
    regAt off = some (.dataIn ⟨(off.toNat - 0x40) / 4, by omega⟩) := by
  dsimp only [regAt]
  rw [if_neg (by omega), if_neg (by omega), if_neg (by omega), if_neg (by omega), dif_neg (by omega),
    dif_neg (by omega), if_neg (by omega), dif_pos h']

theorem regAt_dataOut {off : Offset} (h : 0x80 ≤ off.toNat) (h' : off.toNat < 0xC0) :
    regAt off = some (.dataOut ⟨(off.toNat - 0x80) / 4, by omega⟩) := by
  dsimp only [regAt]
  rw [if_neg (by omega), if_neg (by omega), if_neg (by omega), if_neg (by omega), dif_neg (by omega),
    dif_neg (by omega), if_neg (by omega), dif_neg (by omega), dif_pos h']

/-- The unmapped offsets. -/
theorem regAt_eq_none_iff (off : Offset) :
    regAt off = none ↔ (0x38 ≤ off.toNat ∧ off.toNat ≤ 0x3F) ∨ 0xC0 ≤ off.toNat := by
  rcases regAt_cases off with ⟨_, e⟩ | ⟨_, _, e⟩ | ⟨_, _, e⟩ | ⟨_, _, e⟩ | ⟨k, _, _, _, e⟩ |
    ⟨j, _, _, _, e⟩ | ⟨_, e⟩ | ⟨i, _, _, _, e⟩ | ⟨i, _, _, _, e⟩ <;>
  · rw [e]
    simp only [reduceCtorEq, true_iff, false_iff]
    omega

theorem exists_regAt {off : Offset} (h : ¬ ((0x38 ≤ off.toNat ∧ off.toNat ≤ 0x3F) ∨ 0xC0 ≤ off.toNat)) :
    ∃ r, regAt off = some r :=
  Option.ne_none_iff_exists'.mp (mt (regAt_eq_none_iff off).mp h)

/-- STATUS stands at 0x04 alone. -/
theorem ne_status_of_regAt {off : Offset} {r : Reg} (ha : off.toNat % 4 = 0) (h4 : off.toNat ≠ 0x04)
    (hr : regAt off = some r) : r ≠ .status := by
  rintro rfl
  have h : 0x04 ≤ off.toNat ∧ off.toNat < 0x08 := by simpa [hr] using regAt_cases off
  omega

/-! ## The port (R55, R58) -/

theorem portCheck_badWidth (s : State) (off : Offset) {n : Nat} (allowed : Reg → Bool) (hn : n ≠ 4) :
    portCheck s off n allowed = .error .badWidth := if_pos hn

theorem portCheck_misaligned (s : State) {off : Offset} (allowed : Reg → Bool)
    (ha : off.toNat % 4 ≠ 0) : portCheck s off 4 allowed = .error .misaligned := by
  unfold portCheck
  rw [if_neg (by simp), if_pos ha]

theorem portCheck_unmapped (s : State) {off : Offset} (allowed : Reg → Bool)
    (ha : off.toNat % 4 = 0) (hr : regAt off = none) :
    portCheck s off 4 allowed = .error .unmapped := by
  unfold portCheck
  rw [if_neg (by simp), if_neg (by simp [ha]), hr]

theorem portCheck_busy {s : State} {off : Offset} {r : Reg} {allowed : Reg → Bool}
    (ha : off.toNat % 4 = 0) (hr : regAt off = some r) (hb : s.busy = true) (hd : allowed r = false) :
    portCheck s off 4 allowed = .error .busyAccess := by
  rw [portCheck_mapped s _ ha hr, if_pos (by simp [hb, hd])]

/-- A mapped, aligned 4-byte read answers while BUSY = 0 (R58). -/
theorem memRead_of_idle {s : State} {off : Offset} {r : Reg} (ha : off.toNat % 4 = 0)
    (hr : regAt off = some r) (hb : s.busy = false) : memRead s off 4 = .ok (s.readReg r) :=
  memRead_of_readable ha hr fun h => absurd (h.symm.trans hb) (by decide)

/-! ## Read-only and write-only registers (R60) -/

/-- STATUS, CTR_LO, CTR_HI and DATA_OUT take no write. -/
theorem memWrite_readOnly {s : State} {off : Offset} (v : Word) (ha : off.toNat % 4 = 0)
    (hb : s.busy = false)
    (h : (0x04 ≤ off.toNat ∧ off.toNat < 0x10) ∨ (0x80 ≤ off.toNat ∧ off.toNat < 0xC0)) :
    memWrite s off 4 v = .ok s := by
  rcases h with h | ⟨h, h'⟩
  · have h : off.toNat = 0x04 ∨ off.toNat = 0x08 ∨ off.toNat = 0x0C := by omega
    rcases h with h | h | h <;> cases offset_eq_of_toNat h
    · exact memWrite_of_idle (r := .status) v ha rfl hb
    · exact memWrite_of_idle (r := .ctrLo) v ha rfl hb
    · exact memWrite_of_idle (r := .ctrHi) v ha rfl hb
  · exact memWrite_of_idle v ha (regAt_dataOut h h') hb

/-- CMD, KEY_IN and NONCE_IN read 0. -/
theorem memRead_writeOnly {s : State} {off : Offset} (ha : off.toNat % 4 = 0) (hb : s.busy = false)
    (h : off.toNat = 0x00 ∨ (0x10 ≤ off.toNat ∧ off.toNat < 0x38)) : memRead s off 4 = .ok 0 := by
  rcases h with h | ⟨h, h'⟩
  · cases offset_eq_of_toNat h
    exact memRead_of_idle (r := .cmd) ha rfl hb
  · rcases Nat.lt_or_ge off.toNat 0x30 with hk | hk
    · exact memRead_of_idle ha (regAt_keyIn h hk) hb
    · exact memRead_of_idle ha (regAt_nonceIn hk h') hb

/-! ## The step of an access -/

theorem hostRead_of_error {s : State} {off : Offset} {n : Nat} {r : BusReason} (next : Word → Nat)
    (h : memRead s off n = .error r) : s.hostRead off n next = s.busError r := by
  unfold State.hostRead
  rw [h]

theorem hostWrite_of_error {s : State} {off : Offset} {n : Nat} {v : Word} {r : BusReason}
    (h : memWrite s off n v = .error r) : s.hostWrite off n v = s.busError r := by
  unfold State.hostWrite
  rw [h]

/-- A read that does not branch moves the host on by 1, with or without an error (R58). -/
theorem hostRead_pc (s : State) (off : Offset) (n : Nat) :
    (s.hostRead off n (fun _ => s.pc + 1)).pc = s.pc + 1 := by
  unfold State.hostRead
  split <;> rfl

/-- A write moves the host on by 1, with or without an error (R59). -/
theorem hostWrite_pc (s : State) (off : Offset) (n : Nat) (v : Word) :
    (s.hostWrite off n v).pc = s.pc + 1 := by
  unfold State.hostWrite
  split <;> rfl

/-- Every access but BNZ moves the host on by 1. -/
theorem perform_pc (s : State) {a : Access} (h : ∀ off mask l, a ≠ .branchNonzero off mask l) :
    (s.perform a).pc = s.pc + 1 := by
  cases a with
  | read off n => exact hostRead_pc s off n
  | write off n v => exact hostWrite_pc s off n v
  | readExpect off v => exact hostRead_pc s off 4
  | branchNonzero off mask l => exact absurd rfl (h off mask l)

/-- Counting an access changes none of the checks it meets. -/
theorem memRead_error_countAccess {s : State} {off : Offset} {n : Nat} {r : BusReason} (m : Nat)
    (h : memRead s off n = .error r) : memRead (s.countAccess m) off n = .error r :=
  memRead_error.mpr ((portCheck_congr (t := s) rfl off n _).trans (memRead_error.mp h))

theorem memWrite_error_countAccess {s : State} {off : Offset} {n : Nat} {v : Word} {r : BusReason}
    (m : Nat) (h : memWrite s off n v = .error r) : memWrite (s.countAccess m) off n v = .error r :=
  memWrite_error.mpr ((portCheck_congr (t := s) rfl off n _).trans (memWrite_error.mp h))

end Sys2Proof.Machine
end

section
/-! The statements of the family 20_memory.md. -/

open Sys2Proof Sys2Proof.Machine

/-- Settles O38: lanes and sums as numbers, and the two round trips between bytes and words. -/
theorem buffersAreLittleEndian : Obligations.BuffersAreLittleEndian := by
  unfold Obligations.BuffersAreLittleEndian
  refine fun n => ⟨fun B j h => byteOf_toNat B h, fun b w => ?_, fun b j h => byteOf_wordsOfBytes b h,
    wordsOfBytes_byteOf⟩
  rw [Fin.getElem_fin, wordsOfBytes_getElem b w.isLt, wordOfBytes_toNat]

/-- Settles O39: each row of R58 by the check that stops it or the register at its offset. -/
theorem memReadIsTheRule : Obligations.MemReadIsTheRule := by
  unfold Obligations.MemReadIsTheRule
  refine ⟨fun s a m ha hbranch => ?_, fun s off n => ?_⟩
  · exact ⟨_, step_of_hostAccesses ha, perform_pc (s.countAccess m) hbranch⟩
  · intro o
    split_ifs with hn ha hu hb h00 h04 h08 h0C hstaging hdata
    · exact memRead_error.mpr (portCheck_badWidth s off _ hn)
    · obtain rfl := Decidable.not_not.mp hn
      exact memRead_error.mpr (portCheck_misaligned s _ ha)
    all_goals
      obtain rfl := Decidable.not_not.mp hn
      replace ha : off.toNat % 4 = 0 := Decidable.not_not.mp ha
    · exact memRead_error.mpr (portCheck_unmapped s _ ha ((regAt_eq_none_iff off).mpr hu))
    · obtain ⟨hb, h4⟩ := hb
      obtain ⟨r, hr⟩ := exists_regAt hu
      exact memRead_error.mpr
        (portCheck_busy ha hr hb (beq_eq_false_iff_ne.mpr (ne_status_of_regAt ha h4 hr)))
    · replace hb : s.busy = false := by simpa [h00] using hb
      exact memRead_writeOnly ha hb (.inl h00)
    · cases offset_eq_of_toNat h04
      exact memRead_status s
    all_goals replace hb : s.busy = false := by simpa [h04] using hb
    · cases offset_eq_of_toNat h08
      exact memRead_of_idle (r := .ctrLo) ha rfl hb
    · cases offset_eq_of_toNat h0C
      exact memRead_of_idle (r := .ctrHi) ha rfl hb
    · exact memRead_writeOnly ha hb (by omega)
    · rw [Vector.getElem?_eq_getElem (by omega), Option.getD_some]
      exact memRead_of_idle ha (regAt_dataIn (by omega) hdata) hb
    · rw [Vector.getElem?_eq_getElem (by omega), Option.getD_some]
      exact memRead_of_idle ha (regAt_dataOut (by omega) (by omega)) hb

/-- Settles O40: each row of R59 by the check that stops it or the register at its offset. -/
theorem memWriteIsTheRule : Obligations.MemWriteIsTheRule := by
  unfold Obligations.MemWriteIsTheRule
  intro s off n v o
  refine ⟨Config.freeLatency s.draws, ?_⟩
  split_ifs with hn ha hu hb h00 hro hkey hnonce hdata
  · exact memWrite_error.mpr (portCheck_badWidth s off _ hn)
  · obtain rfl := Decidable.not_not.mp hn
    exact memWrite_error.mpr (portCheck_misaligned s _ ha)
  all_goals
    obtain rfl := Decidable.not_not.mp hn
    replace ha : off.toNat % 4 = 0 := Decidable.not_not.mp ha
  · exact memWrite_error.mpr (portCheck_unmapped s _ ha ((regAt_eq_none_iff off).mpr hu))
  · obtain ⟨r, hr⟩ := exists_regAt hu
    exact memWrite_error.mpr (portCheck_busy ha hr hb rfl)
  all_goals replace hb : s.busy = false := Bool.eq_false_iff.mpr hb
  · cases offset_eq_of_toNat h00
    exact memWrite_of_idle (r := .cmd) v ha rfl hb
  · exact memWrite_readOnly v ha hb (by omega)
  · rw [← set_eq_setIfInBounds s.keyIn (by omega)]
    exact memWrite_of_idle v ha (regAt_keyIn (by omega) hkey) hb
  · rw [← set_eq_setIfInBounds s.nonceIn (by omega)]
    exact memWrite_of_idle v ha (regAt_nonceIn (by omega) hnonce) hb
  · rw [← set_eq_setIfInBounds s.dataIn (by omega)]
    exact memWrite_of_idle v ha (regAt_dataIn (by omega) hdata) hb
  · exact memWrite_readOnly v ha hb (by omega)

/-- Settles O44: whatever the kind of access, the step is `busError` after the access is counted. -/
theorem busErrorIsOnlyRecorded : Obligations.BusErrorIsOnlyRecorded := by
  unfold Obligations.BusErrorIsOnlyRecorded
  intro s a m r ha herr
  have hstep : (s.countAccess m).perform a = (s.countAccess m).busError r := by
    cases a with
    | read off n => exact hostRead_of_error _ (memRead_error_countAccess m herr)
    | write off n v => exact hostWrite_of_error (memWrite_error_countAccess m herr)
    | readExpect off v => exact hostRead_of_error _ (memRead_error_countAccess m herr)
    | branchNonzero off mask l => exact hostRead_of_error _ (memRead_error_countAccess m herr)
  exact ⟨(s.countAccess m).busError r, (step_of_hostAccesses ha).trans (congrArg _ hstep), rfl, rfl, rfl,
    fun f => List.mem_insert_iff⟩

/-- Settles O41: the registers of each group, by the ranges of their offsets. -/
theorem readOnlyIgnoresAndWriteOnlyReadsZero : Obligations.ReadOnlyIgnoresAndWriteOnlyReadsZero := by
  unfold Obligations.ReadOnlyIgnoresAndWriteOnlyReadsZero
  refine fun s off v hb ha => ⟨fun h => memWrite_readOnly v ha hb ?_, fun h => memRead_writeOnly ha hb ?_⟩
  · rcases h with rfl | rfl | rfl | h
    · decide
    · decide
    · decide
    · exact .inr h
  · exact h.imp (fun e => by rw [e]; rfl) id

end

section
/-! SUPPORT. Fields that are or-ed into a command word, as one number: a rule that the statements of
30_encoding.md cite, beside those of Laws/. -/

namespace Sys2Proof

/-- A byte field above everything a word holds is added to it when or-ed in (R81, R90). -/
theorem or_shiftLeft_eq_ofNat {w : Word} {i : Nat} (x : Byte) (hw : w.toNat < 2 ^ i) (hi : i ≤ 24) :
    w ||| (x.setWidth 32 <<< i) = BitVec.ofNat 32 (w.toNat + 2 ^ i * x.toNat) := by
  have hx : x.toNat * 2 ^ i < 2 ^ 32 :=
    calc x.toNat * 2 ^ i < 2 ^ 8 * 2 ^ i := Nat.mul_lt_mul_of_pos_right x.isLt (Nat.two_pow_pos i)
      _ ≤ 2 ^ 8 * 2 ^ 24 := Nat.mul_le_mul_left _ (Nat.pow_le_pow_right (by decide) hi)
  have hs : (x.setWidth 32 <<< i).toNat = x.toNat <<< i := by
    rw [BitVec.toNat_shiftLeft, BitVec.toNat_setWidth_of_le (by decide), Nat.shiftLeft_eq,
      Nat.mod_eq_of_lt hx]
  have hsum : w.toNat + 2 ^ i * x.toNat = (w ||| (x.setWidth 32 <<< i)).toNat := by
    rw [BitVec.toNat_or, hs, Nat.or_comm, ← Nat.shiftLeft_add_eq_or_of_lt hw, Nat.shiftLeft_eq,
      Nat.mul_comm, Nat.add_comm]
  rw [hsum, BitVec.ofNat_toNat, BitVec.setWidth_eq]

end Sys2Proof
end

section
/-! The statements of the family 30_encoding.md. -/

open Sys2Proof Sys2Proof.Machine

/-- Settles O5: the decoder's answers one by one, each with the branch of R84 that its fields select. -/
theorem engineDecodesThePendingWord : Obligations.EngineDecodesThePendingWord := by
  unfold Obligations.EngineDecodesThePendingWord
  intro s w he hw OP FA FB RSV illegal
  have hbad : ∀ {e}, decode w = .error e → step s = illegal := step_of_illegal he hw
  have hrun : ∀ {i}, decode w = .ok i → step s = exec i s := fun hd =>
    step_of_completes ⟨he, w, hw, hd⟩
  rcases decode_cases w with ⟨hr, hd⟩ | ⟨hr, ho, hf, hd⟩ | ⟨hr, ho, hb, hd⟩ | ⟨hr, ho, hd⟩ | ⟨hz, hd⟩ |
    ⟨hr, ho, hd⟩ | ⟨hz, ho, hd⟩ | ⟨hz, hd⟩ | ⟨hz, hd⟩ | ⟨hz, hd⟩
  · rw [hbad hd, if_pos hr]
  · have hr : RSV = 0 := hr
    have ho : OP = 0 ∨ OP = 3 ∨ OP = 4 ∨ OP = 5 := by simpa using ho
    have hf : FA ≠ 0 ∨ FB ≠ 0 := hf
    rcases ho with ho | ho | ho | ho <;> simp [hbad hd, hr, ho, hf]
  · simp [hbad hd, RSV, OP, FB, hr, ho, hb]
  · rw [hbad hd, if_neg (by omega), if_neg (by omega), if_neg (by omega), if_neg (by omega),
      if_neg (by omega), if_neg (by omega), if_neg (by omega)]
  · simp [hrun hd, RSV, OP, FA, FB, hz]
  · simp [hrun hd, RSV, OP, FA, FB, hr, ho]
  · have hr : RSV = 0 := by omega
    have hb : FB = 0 := by omega
    simp [hrun hd, OP, FA, hr, ho, hb]
  · simp [hrun hd, RSV, OP, FA, FB, hz]
  · simp [hrun hd, RSV, OP, FA, FB, hz]
  · simp [hrun hd, RSV, OP, FA, FB, hz]

/-- Settles O6: each expansion is `issueAt` of its word, and the fields or-ed into a word are a sum. -/
theorem pseudoInstructionsWriteTheirWords : Obligations.PseudoInstructionsWriteTheirWords := by
  unfold Obligations.PseudoInstructionsWriteTheirWords
  intro labels pc issue
  have hissue : ∀ {w v : Word}, w = v → some (issueAt pc w) = issue v := fun e => e ▸ rfl
  refine ⟨rfl, rfl, fun k n => hissue ?_, fun l => hissue ?_, rfl, rfl, rfl, fun w => rfl⟩
  · have hk : (BitVec.ofNat 32 (1 + 16 * k.toNat)).toNat = 1 + 16 * k.toNat :=
      Nat.mod_eq_of_lt (by have := k.isLt; omega)
    calc (0x00000001 : Word) ||| (k.setWidth 32 <<< 4) ||| (n.setWidth 32 <<< 12)
      _ = BitVec.ofNat 32 (1 + 16 * k.toNat) ||| (n.setWidth 32 <<< 12) :=
        congrArg (· ||| _) (or_shiftLeft_eq_ofNat k (by decide) (by decide))
      _ = BitVec.ofNat 32 ((BitVec.ofNat 32 (1 + 16 * k.toNat)).toNat + 4096 * n.toNat) :=
        or_shiftLeft_eq_ofNat n (by omega) (by decide)
      _ = BitVec.ofNat 32 (1 + 16 * k.toNat + 4096 * n.toNat) := by rw [hk]
  · exact or_shiftLeft_eq_ofNat l (by decide) (by decide)

end

section
/-! SUPPORT. The command words of the decoder's answers: the encoder gives back the word of every accepted
command, and INIT's words are those of its row. The statements of 40_state_init.md cite these rules, beside
those of Laws/. -/

namespace Sys2Proof

/-- Every command that a word decodes to is well formed and encodes back to that word (R84, R88). -/
theorem wellFormed_and_encode_of_decode {w : Word} {i : Instr} (h : decode w = .ok i) :
    i.WellFormed ∧ encode i = w := by
  have hbyte : ∀ n : Nat, n % 256 < 256 := fun n => Nat.mod_lt n (by decide)
  have h1 : (1 : BitVec 4).toNat = 1 := rfl
  have h2 : (2 : BitVec 4).toNat = 2 := rfl
  rcases decode_cases w with ⟨_, hd⟩ | ⟨_, _, _, hd⟩ | ⟨_, _, _, hd⟩ | ⟨_, _, hd⟩ | ⟨hz, hd⟩ | ⟨hr, ho, hd⟩ |
    ⟨hz, ho, hd⟩ | ⟨hz, hd⟩ | ⟨hz, hd⟩ | ⟨hz, hd⟩ <;> cases hd.symm.trans h
  · exact ⟨trivial, BitVec.eq_of_toNat_eq hz.symm⟩
  · refine ⟨⟨hbyte _, hbyte _⟩, BitVec.eq_of_toNat_eq ?_⟩
    exact (commandWord_toNat 1 (hbyte _) (hbyte _)).trans (by omega)
  · refine ⟨hbyte _, BitVec.eq_of_toNat_eq ?_⟩
    exact (commandWord_toNat 2 (hbyte _) (by decide)).trans (by omega)
  · exact ⟨trivial, BitVec.eq_of_toNat_eq hz.symm⟩
  · exact ⟨trivial, BitVec.eq_of_toNat_eq hz.symm⟩
  · exact ⟨trivial, BitVec.eq_of_toNat_eq hz.symm⟩

/-- A command whose encoded word decodes to it is decoded from that word alone. -/
theorem decode_eq_ok_iff {i : Instr} (hi : decode (encode i) = .ok i) (w : Word) :
    decode w = .ok i ↔ w = encode i :=
  ⟨fun h => (wellFormed_and_encode_of_decode h).2.symm, fun h => h ▸ hi⟩

/-- A word of INIT's row decodes to INIT with the fields FA and FB (R84). -/
theorem decode_of_mask_init {w : Word} (h : w &&& 0xFFF0000F = 1) :
    decode w = .ok (.init (w.toNat / 16 % 256) (w.toNat / 4096 % 256)) := by
  obtain ⟨ho, hr⟩ := (mask_init_iff w).mp h
  obtain ⟨-, ha, hb, -⟩ := fields_toNat w
  unfold decode
  rw [hr, ho, ← ha, ← hb]
  rfl

/-- A word that decodes to INIT belongs to INIT's row (R85). -/
theorem mask_init_of_decode {w : Word} {klen nlen : Nat} (h : decode w = .ok (.init klen nlen)) :
    w &&& 0xFFF0000F = 1 := by
  obtain ⟨hwf, hw⟩ := wellFormed_and_encode_of_decode h
  rw [← hw]
  exact beq_iff_eq.mp (Laws.EncodedWordRow.init klen nlen hwf)

theorem decode_eq_init_iff (w : Word) (klen nlen : Nat) : decode w = .ok (.init klen nlen) ↔
    w &&& 0xFFF0000F = 1 ∧ klen = w.toNat / 16 % 256 ∧ nlen = w.toNat / 4096 % 256 := by
  constructor
  · intro h
    have hm := mask_init_of_decode h
    cases h.symm.trans (decode_of_mask_init hm)
    exact ⟨hm, rfl, rfl⟩
  · rintro ⟨hm, rfl, rfl⟩
    exact decode_of_mask_init hm

end Sys2Proof
end

section
/-! SUPPORT. INIT with its right lengths and with a wrong one, and STATUS after CLEAR. -/

namespace Sys2Proof.Machine

theorem execInit_badKey (s : State) {klen : Nat} (nlen : Nat) (h : klen ≠ 32) :
    execInit klen nlen s = .next (s.initFail .invalidKeyLength) := if_pos h

theorem execInit_badNonce (s : State) {nlen : Nat} (h : nlen ≠ 8) :
    execInit 32 nlen s = .next (s.initFail .invalidNonceLength) := if_pos h

theorem execInit_succeeds (s : State) : execInit 32 8 s = .next s.initialised := rfl

/-- After CLEAR every field of STATUS is 0 (R31, R106). -/
theorem status_cleared (s : State) : s.cleared.status = 0 :=
  (status_of_idle rfl).trans (BitVec.eq_of_toNat_eq (statusFields_toNat s.cleared))

end Sys2Proof.Machine
end

section
/-! The statements of the family 40_state_init.md. -/

open Sys2Proof Sys2Proof.Machine

/-- Settles O13: the words are those of INIT's row, and INIT has a success state and two failures, the key's
first. -/
theorem initCreatesTheCipherState : Obligations.InitCreatesTheCipherState := by
  unfold Obligations.InitCreatesTheCipherState
  exact ⟨decode_eq_init_iff, execInit_succeeds, fun s klen nlen => execInit_badKey s nlen,
    fun s nlen => execInit_badNonce s⟩

/-- Settles O12: NOP's own word is 0, and NOP is `finish 0`. -/
theorem nopOnlyClearsErr : Obligations.NopOnlyClearsErr := by
  unfold Obligations.NopOnlyClearsErr
  exact ⟨decode_eq_ok_iff (i := .nop) rfl, execNop_eq⟩

/-- Settles O14: either failure is `initFail`, with the code of the first wrong length. -/
theorem failedInitInvalidates : Obligations.FailedInitInvalidates := by
  unfold Obligations.FailedInitInvalidates
  intro s klen nlen h
  by_cases hk : klen = 32
  · subst hk
    exact execInit_badNonce s (h.resolve_left fun hk => hk rfl)
  · rw [if_pos hk]
    exact execInit_badKey s nlen hk

/-- Settles O15: CLEAR's own word is 5, and after `cleared` BUSY is 0 and all that STATUS and the counter
show is 0. -/
theorem clearZeroisesEverything : Obligations.ClearZeroisesEverything := by
  unfold Obligations.ClearZeroisesEverything
  refine ⟨decode_eq_ok_iff (i := .clear) rfl, fun s => ⟨s.cleared, execClear_eq s, rfl, ?_, ?_, ?_⟩⟩
  · rw [memRead_status, status_cleared]
  · exact memRead_of_idle (r := .ctrLo) (by decide) rfl rfl
  · exact memRead_of_idle (r := .ctrHi) (by decide) rfl rfl

end

section
/-! SUPPORT. What `quarterRound`, `qrOn` and `doubleRound` are in the words of 41_block_transform.md. -/

namespace Sys2Proof.Machine

/-- The quarter-round with the library's rotation (R122). -/
theorem quarterRound_eq_rotateLeft (a b c d : Word) : quarterRound a b c d =
    let a1 := a + b
    let d1 := (d ^^^ a1).rotateLeft 16
    let c1 := c + d1
    let b1 := (b ^^^ c1).rotateLeft 12
    let a2 := a1 + b1
    let d2 := (d1 ^^^ a2).rotateLeft 8
    let c2 := c1 + d2
    let b2 := (b1 ^^^ c2).rotateLeft 7
    (a2, b2, c2, d2) := by
  simp (disch := decide) only [quarterRound, rotl_eq_rotateLeft]

/-- On four distinct words `qrOn` leaves the four results of the quarter-round (R122). -/
theorem qrOn_getElem_group (W : Block) {i j k l : Fin 16} (h : [i, j, k, l].Nodup) :
    let V := qrOn W (i, j, k, l)
    (V[i], V[j], V[k], V[l]) = quarterRound W[i] W[j] W[k] W[l] := by
  have ⟨⟨hij, hik, hil⟩, ⟨hjk, hjl⟩, hkl⟩ : (i ≠ j ∧ i ≠ k ∧ i ≠ l) ∧ (j ≠ k ∧ j ≠ l) ∧ k ≠ l := by
    simpa using h
  simp only [qrOn_getElem, if_true, if_neg hij, if_neg hik, if_neg hil, if_neg hjk, if_neg hjl, if_neg hkl]

/-- `qrOn` leaves the words outside its group alone (R122). -/
theorem qrOn_getElem_of_not_mem (W : Block) {i j k l n : Fin 16} (h : n ∉ [i, j, k, l]) :
    (qrOn W (i, j, k, l))[n] = W[n] := by
  have ⟨hi, hj, hk, hl⟩ : n ≠ i ∧ n ≠ j ∧ n ≠ k ∧ n ≠ l := by simpa using h
  simp only [qrOn_getElem, if_neg hi, if_neg hj, if_neg hk, if_neg hl]

/-- A double-round is the eight quarter-rounds of R123 and R124 in their order. -/
theorem doubleRound_eq_qrOn (W : Block) : doubleRound W =
    qrOn (qrOn (qrOn (qrOn (qrOn (qrOn (qrOn (qrOn W (0, 4, 8, 12)) (1, 5, 9, 13)) (2, 6, 10, 14))
      (3, 7, 11, 15)) (0, 5, 10, 15)) (1, 6, 11, 12)) (2, 7, 8, 13)) (3, 4, 9, 14) := rfl

end Sys2Proof.Machine
end

section
/-! The statements of the family 41_block_transform.md. -/

open Sys2Proof Sys2Proof.Machine

/-- Settles O23: the permutation iterates the double-round, whose two groups of quarter-rounds are the rule's
eight. -/
theorem transformIsTenDoubleRounds : Obligations.TransformIsTenDoubleRounds := by
  unfold Obligations.TransformIsTenDoubleRounds
  intro x i round
  have hround : round = doubleRound := funext fun W => (doubleRound_eq_qrOn W).symm
  rw [hround]
  exact ⟨permute_eq_iterate x, transform_getElem x i⟩

/-- Settles O16: TRANSFORM's own word is 4, and it leaves `transformed`; the two instances are computed. -/
theorem transformWritesDataOut : Obligations.TransformWritesDataOut := by
  unfold Obligations.TransformWritesDataOut
  exact ⟨decode_eq_ok_iff (i := .transform) rfl, execTransform_eq, by decide +kernel, by decide +kernel⟩

/-- Settles O22: the rotation is the library's, and the last of the group's indices decides each word. -/
theorem quarterRoundIsTheRule : Obligations.QuarterRoundIsTheRule := by
  unfold Obligations.QuarterRoundIsTheRule
  exact ⟨quarterRound_eq_rotateLeft, by decide, by decide, fun W i j k l h =>
    ⟨qrOn_getElem_group W h, fun n => qrOn_getElem_of_not_mem W⟩⟩

end

section
/-! SUPPORT. KSBLOCK in each of its cases, and ADVANCE on the low word, with the carry, and on the counter. -/

namespace Sys2Proof.Machine

/-! ## KSBLOCK (R149) -/

theorem execKsblock_notInitialized {s : State} (hv : s.valid = false) :
    execKsblock s = .next (s.finish 4) := if_pos hv

theorem execKsblock_partialBlock {s : State} (hv : s.valid = true) (hp : s.ksPos ≠ 0) :
    execKsblock s = .next (s.finish 6) :=
  (if_neg (by simp [hv])).trans (if_pos hp)

theorem execKsblock_exhausted {s : State} (hv : s.valid = true) (hp : s.ksPos = 0)
    (hc : s.ctr.toNat = maxCounter) : execKsblock s = .next (s.finish 7) :=
  (if_neg (by simp [hv])).trans ((if_neg (not_not.mpr hp)).trans (if_pos hc))

/-- With none of its three errors KSBLOCK delivers its block. -/
theorem execKsblock_delivers {s : State} (hv : s.valid = true) (hp : s.ksPos = 0)
    (hc : s.ctr.toNat < maxCounter) : execKsblock s = .next s.blockDelivered := by
  rcases execKsblock_cases s with ⟨hv', -⟩ | ⟨-, hp', -⟩ | ⟨-, -, hc', -⟩ | ⟨-, -, -, h⟩
  · exact absurd (hv.symm.trans hv') (by decide)
  · exact absurd hp hp'
  · exact absurd hc' hc.ne
  · exact h

/-! ## ADVANCE (R144) -/

theorem advanceCounter_low {S : Block} (h : S[12] ≠ 0xFFFFFFFF) :
    advanceCounter S = S.set 12 (S[12] + 1) := if_pos h

theorem advanceCounter_carry {S : Block} (h : S[12] = 0xFFFFFFFF) :
    advanceCounter S = (S.set 12 0).set 13 (S[13] + 1) := if_neg (not_not.mpr h)

/-- ADVANCE leaves the S that a delivered block leaves. -/
theorem advance_cipher_eq_blockDelivered {s : State} (hc : s.ctr.toNat < maxCounter) :
    s.advance.cipher = s.blockDelivered.cipher := advanceCounter_eq s.cipher hc

theorem advance_ctr {s : State} (hc : s.ctr.toNat < maxCounter) :
    s.advance.ctr.toNat = s.ctr.toNat + 1 := by
  rw [State.ctr_eq, advance_cipher_eq_blockDelivered hc]
  exact blockDelivered_ctr hc

end Sys2Proof.Machine
end

section
/-! The statements of the family 42_keystream_gen.md. -/

open Sys2Proof Sys2Proof.Machine

/-- Settles O17: KSBLOCK's own word is 3, and its three errors and `blockDelivered` each have a rule. -/
theorem ksblockDeliversTheCounterBlock : Obligations.KsblockDeliversTheCounterBlock := by
  unfold Obligations.KsblockDeliversTheCounterBlock
  exact ⟨decode_eq_ok_iff (i := .ksblock) rfl, fun _ => execKsblock_notInitialized,
    fun _ => execKsblock_partialBlock, fun _ => execKsblock_exhausted, fun _ => execKsblock_delivers⟩

/-- Settles O27: the counter goes up by 1, and the rest of the state shows in the two branches of ADVANCE. -/
theorem advanceIncrementsTheCounter : Obligations.AdvanceIncrementsTheCounter := by
  unfold Obligations.AdvanceIncrementsTheCounter
  intro s hc
  have hcipher : ∀ {S : Block}, advanceCounter s.cipher = S → s.advance = { s with cipher := S } :=
    fun e => e ▸ rfl
  exact ⟨advance_ctr hc, fun h => hcipher (advanceCounter_low h), fun h => hcipher (advanceCounter_carry h)⟩

end

section
/-! SUPPORT. APPLY's words are those of its row, and what APPLY leaves at the natural stream position `P`. -/

namespace Sys2Proof

/-- A word of APPLY's row decodes to APPLY with the field FA (R84). -/
theorem decode_of_mask_apply {w : Word} (h : w &&& 0xFFFFF00F = 2) :
    decode w = .ok (.apply (w.toNat / 16 % 256)) := by
  obtain ⟨ho, hb, hr⟩ := (mask_apply_iff w).mp h
  obtain ⟨-, ha, -, -⟩ := fields_toNat w
  unfold decode
  rw [hr, ho, hb, ← ha]
  rfl

/-- A word that decodes to APPLY belongs to APPLY's row (R85). -/
theorem mask_apply_of_decode {w : Word} {len : Nat} (h : decode w = .ok (.apply len)) :
    w &&& 0xFFFFF00F = 2 := by
  obtain ⟨hwf, hw⟩ := wellFormed_and_encode_of_decode h
  rw [← hw]
  exact beq_iff_eq.mp (Laws.EncodedWordRow.apply len hwf)

theorem decode_eq_apply_iff (w : Word) (len : Nat) : decode w = .ok (.apply len) ↔
    w &&& 0xFFFFF00F = 2 ∧ len = w.toNat / 16 % 256 := by
  constructor
  · intro h
    have hm := mask_apply_of_decode h
    cases h.symm.trans (decode_of_mask_apply hm)
    exact ⟨hm, rfl⟩
  · rintro ⟨hm, rfl⟩
    exact decode_of_mask_apply hm

end Sys2Proof

namespace Sys2Proof.Machine

/-- The counter after a chunk at position `P` is `ceil((P + LEN) / 64)`, a natural number (R166). -/
theorem counterAfter_of_streamPos {s : State} {P : Nat} (hP : s.streamPos = P) (len : Nat) :
    s.counterAfter len = ((P + len + 63) / 64 : Nat) := by
  rw [counterAfter_eq_div, hP]
  rfl

/-- The state a successful APPLY leaves, by the stream position alone (R163). -/
theorem applied_of_streamPos {s : State} {P : Nat} (hP : s.streamPos = P) (len : Nat) :
    s.applied len = { s with
      dataOut := s.chunkOutput len
      cipher := blockInput s.cipher (BitVec.ofNat 64 ((P + len + 63) / 64))
      ksPos := BitVec.ofNat 6 ((P + len) % 64)
      work := zeros 16, keystream := zeros 16
      err := 0, busy := false, pending := none } := by
  obtain ⟨-, hp, -⟩ := s.streamPos_split hP
  unfold State.applied
  rw [counterAfter_of_streamPos hP, Int.toNat_natCast, hp, Nat.mod_add_mod]

/-- APPLY at position `P` is exhausted when its chunk would end in a block past the last counter value. -/
theorem execApply_exhausted_of_streamPos {s : State} {len P : Nat} (hl : len ≤ 64) (hv : s.valid = true)
    (hP : s.streamPos = P) (hc : maxCounter < (P + len + 63) / 64) :
    execApply len s = .next (s.finish 7) :=
  execApply_exhausted s hl hv (by rw [counterAfter_of_streamPos hP]; exact Int.ofNat_lt.mpr hc)

/-- APPLY at position `P` succeeds up to the last counter value. -/
theorem execApply_succeeds_of_streamPos {s : State} {len P : Nat} (hl : len ≤ 64) (hv : s.valid = true)
    (hP : s.streamPos = P) (hc : (P + len + 63) / 64 ≤ maxCounter) :
    execApply len s = .next (s.applied len) :=
  execApply_succeeds s hl hv (by rw [counterAfter_of_streamPos hP]; exact Int.ofNat_le.mpr hc)

end Sys2Proof.Machine
end

section
/-! The statements of the family 43_xor_streamer.md. -/

open Sys2Proof Sys2Proof.Machine

/-- Settles O18: APPLY's words are those of its row, its three errors each have a rule, and at the stream
position a success leaves `applied`, whose bytes are those of `chunkOutput`. -/
theorem applyXorsTheChunk : Obligations.ApplyXorsTheChunk := by
  unfold Obligations.ApplyXorsTheChunk
  refine ⟨decode_eq_apply_iff, fun s _ => execApply_invalidLength s, fun s _ => execApply_notInitialized s,
    fun s len P => execApply_exhausted_of_streamPos, fun s len P hl hv hP hc => ⟨s.chunkOutput len, ?_, ?_⟩⟩
  · exact (execApply_succeeds_of_streamPos hl hv hP hc).trans
      (congrArg Host.Outcome.next (applied_of_streamPos hP len))
  · exact fun i hi => byteOf_chunkOutput s hP hi

end

section
/-! SUPPORT. The code each command leaves in ERR: the first error of its row (R183), and 0 with none. -/

namespace Sys2Proof.Machine

theorem execInit_err {s t : State} {klen nlen : Nat} (h : execInit klen nlen s = .next t) :
    t.err = if klen ≠ 32 then 2 else if nlen ≠ 8 then 3 else 0 := by
  rcases execInit_cases s klen nlen with ⟨hk, e⟩ | ⟨hk, hn, e⟩ | ⟨hk, hn, e⟩ <;> cases e.symm.trans h
  · rw [if_pos hk]; rfl
  · rw [if_neg (not_not.mpr hk), if_pos hn]; rfl
  · rw [if_neg (not_not.mpr hk), if_neg (not_not.mpr hn)]; rfl

theorem execApply_err {s t : State} {len : Nat} (h : execApply len s = .next t) :
    t.err = if 64 < len then 5 else if s.valid = false then 4
      else if (maxCounter : Int) < s.counterAfter len then 7 else 0 := by
  rcases execApply_cases s len with ⟨hl, e⟩ | ⟨hl, hv, e⟩ | ⟨hl, hv, hc, e⟩ | ⟨hl, hv, hc, e⟩ <;>
    cases e.symm.trans h
  · rw [if_pos hl]; rfl
  · rw [if_neg hl.not_gt, if_pos hv]; rfl
  · rw [if_neg hl.not_gt, if_neg (by simp [hv]), if_pos hc]; rfl
  · rw [if_neg hl.not_gt, if_neg (by simp [hv]), if_neg hc.not_gt]; rfl

theorem execKsblock_err {s t : State} (h : execKsblock s = .next t) :
    t.err = if s.valid = false then 4 else if s.ksPos ≠ 0 then 6
      else if s.ctr.toNat = maxCounter then 7 else 0 := by
  rcases execKsblock_cases s with ⟨hv, e⟩ | ⟨hv, hp, e⟩ | ⟨hv, hp, hc, e⟩ | ⟨hv, hp, hc, e⟩ <;>
    cases e.symm.trans h
  · rw [if_pos hv]; rfl
  · rw [if_neg (by simp [hv]), if_pos hp]; rfl
  · rw [if_neg (by simp [hv]), if_neg (not_not.mpr hp), if_pos hc]; rfl
  · rw [if_neg (by simp [hv]), if_neg (not_not.mpr hp), if_neg hc.ne]; rfl

/-- NOP, TRANSFORM and CLEAR have no error of their own. -/
theorem exec_err_of_errorless {s t : State} {i : Instr} (hi : i = .nop ∨ i = .transform ∨ i = .clear)
    (h : exec i s = .next t) : t.err = 0 := by
  rcases hi with rfl | rfl | rfl <;> cases h <;> rfl

/-- APPLY's limit, stated at the stream position. -/
theorem execApply_err_of_streamPos {s t : State} {len P : Nat} (hl : len ≤ 64) (hv : s.valid = true)
    (hP : s.streamPos = P) (h : execApply len s = .next t) :
    t.err = if maxCounter < (P + len + 63) / 64 then 7 else 0 := by
  have hc : (maxCounter : Int) < s.counterAfter len ↔ maxCounter < (P + len + 63) / 64 := by
    rw [counterAfter_of_streamPos hP]
    exact Int.ofNat_lt
  rw [execApply_err h, if_neg hl.not_gt, if_neg (by simp [hv])]
  simp only [hc]

/-- `2^64 - 1` is the counter value with every bit set. -/
theorem toNat_eq_maxCounter_iff (c : U64) : c.toNat = maxCounter ↔ c = 0xFFFFFFFFFFFFFFFF :=
  (bitVec_eq_iff c 0xFFFFFFFFFFFFFFFF).symm

/-- No command of the opcode map reports IllegalCommand. -/
theorem exec_err_ne_one {s t : State} {i : Instr} (h : exec i s = .next t) : t.err ≠ 1 := by
  cases i with
  | nop => rw [exec_err_of_errorless (.inl rfl) h]; decide
  | init klen nlen => rw [execInit_err h]; split_ifs <;> decide
  | apply len => rw [execApply_err h]; split_ifs <;> decide
  | ksblock => rw [execKsblock_err h]; split_ifs <;> decide
  | transform => rw [exec_err_of_errorless (.inr (.inl rfl)) h]; decide
  | clear => rw [exec_err_of_errorless (.inr (.inr rfl)) h]; decide

/-- The ENGINE reports IllegalCommand for the words the decoder rejects, and for no others. -/
theorem step_err_eq_one_iff {s t : State} {w : Word} (he : s.engineMoves = true) (hw : s.pending = some w)
    (h : step s = .next t) : t.err = 1 ↔ ∃ e, decode w = .error e := by
  cases hd : decode w with
  | error e =>
    cases (step_of_illegal he hw hd).symm.trans h
    exact ⟨fun _ => ⟨e, rfl⟩, fun _ => rfl⟩
  | ok i =>
    have ht := exec_err_ne_one (exec_of_completes ⟨he, w, hw, hd⟩ h)
    exact ⟨fun h1 => absurd h1 ht, fun ⟨_, h1⟩ => nomatch h1⟩

end Sys2Proof.Machine
end

section
/-! The statements of the family 60_exceptions.md. -/

open Sys2Proof Sys2Proof.Machine

/-- Settles O19: each command's code is an if-chain in the order of its row, and code 1 comes from the
decoder alone. -/
theorem firstErrorOfTheRowIsReported : Obligations.FirstErrorOfTheRowIsReported := by
  unfold Obligations.FirstErrorOfTheRowIsReported
  refine ⟨fun s t klen nlen => execInit_err, fun s t len h => ⟨fun hl => ?_, fun hl hv => ?_,
    fun P hl hv hP => execApply_err_of_streamPos hl hv hP h⟩, fun s t h => ?_,
    fun s t i => exec_err_of_errorless, fun s t w => step_err_eq_one_iff⟩
  · rw [execApply_err h, if_pos hl]
  · rw [execApply_err h, if_neg hl.not_gt, if_pos hv]
  · rw [execKsblock_err h]
    simp only [toNat_eq_maxCounter_iff]

end

section
/-! SUPPORT. Encoding and decoding: every well-formed command's word decodes to it, and the rows of the match
and mask table as answers of the decoder. -/

namespace Sys2Proof

/-- INIT's word decodes to INIT with both its lengths (R81, R84). -/
theorem decode_encode_init {klen nlen : Nat} (h : (Instr.init klen nlen).WellFormed) :
    decode (encode (.init klen nlen)) = .ok (.init klen nlen) := by
  obtain ⟨hk, hn⟩ := h
  have hw : (encode (.init klen nlen)).toNat = 1 + 16 * klen + 4096 * nlen := commandWord_toNat 1 hk hn
  have hrow := beq_iff_eq.mp (Laws.EncodedWordRow.init klen nlen ⟨hk, hn⟩)
  unfold fitsField at hk hn
  exact (decode_eq_init_iff _ klen nlen).mpr ⟨hrow, by omega, by omega⟩

/-- APPLY's word decodes to APPLY with its length (R81, R84). -/
theorem decode_encode_apply {len : Nat} (h : (Instr.apply len).WellFormed) :
    decode (encode (.apply len)) = .ok (.apply len) := by
  have hl : len < 256 := h
  have hw : (encode (.apply len)).toNat = 2 + 16 * len + 4096 * 0 := commandWord_toNat 2 hl (by decide)
  exact (decode_eq_apply_iff _ len).mpr ⟨beq_iff_eq.mp (Laws.EncodedWordRow.apply len h), by omega⟩

/-- The encoded word of every well-formed command decodes to that command (R81, R84, R88). -/
theorem decode_encode {i : Instr} (h : i.WellFormed) : decode (encode i) = .ok i := by
  cases i with
  | nop => rfl
  | init klen nlen => exact decode_encode_init h
  | apply len => exact decode_encode_apply h
  | ksblock => rfl
  | transform => rfl
  | clear => rfl

/-- APPLY's word is its opcode with the length in FA (R81). -/
theorem encode_apply_eq_or {len : Nat} (h : len < 256) :
    encode (.apply len) = 0x00000002 ||| (BitVec.ofNat 32 len <<< 4) := by
  have hx : (BitVec.ofNat 8 len).setWidth 32 = BitVec.ofNat 32 len := by
    apply BitVec.eq_of_toNat_eq
    simp only [BitVec.toNat_setWidth, BitVec.toNat_ofNat]
    omega
  have hn : (BitVec.ofNat 8 len).toNat = len := Nat.mod_eq_of_lt h
  rw [← hx, or_shiftLeft_eq_ofNat _ (by decide) (by decide), hn]
  refine BitVec.eq_of_toNat_eq ((commandWord_toNat 2 h (by decide)).trans ?_)
  exact (Nat.mod_eq_of_lt (by change 2 + 2 ^ 4 * len < 2 ^ 32; omega)).symm

/-! ## The match and mask table (R85) -/

theorem and_full32 (w : Word) : w &&& 0xFFFFFFFF = w := BitVec.and_allOnes

/-- A command without operands is decoded from its row's one word. -/
theorem decode_eq_ok_iff_mask {i : Instr} (hi : decode (encode i) = .ok i) (w : Word) :
    decode w = .ok i ↔ w &&& 0xFFFFFFFF = encode i := by
  rw [and_full32]
  exact decode_eq_ok_iff hi w

theorem exists_decode_init_iff (w : Word) :
    (∃ klen nlen, decode w = .ok (.init klen nlen)) ↔ w &&& 0xFFF0000F = 0x00000001 :=
  ⟨fun ⟨_, _, h⟩ => mask_init_of_decode h, fun h => ⟨_, _, decode_of_mask_init h⟩⟩

theorem exists_decode_apply_iff (w : Word) :
    (∃ len, decode w = .ok (.apply len)) ↔ w &&& 0xFFFFF00F = 0x00000002 :=
  ⟨fun ⟨_, h⟩ => mask_apply_of_decode h, fun h => ⟨_, decode_of_mask_apply h⟩⟩

/-- The word of a well-formed command belongs to its row, whatever the command. -/
theorem row_accepts_encode {i : Instr} (h : i.WellFormed) : i.row.accepts (encode i) = true := by
  cases i with
  | nop => exact Laws.EncodedWordRow.nop h
  | init klen nlen => exact Laws.EncodedWordRow.init klen nlen h
  | apply len => exact Laws.EncodedWordRow.apply len h
  | ksblock => exact Laws.EncodedWordRow.ksblock h
  | transform => exact Laws.EncodedWordRow.transform h
  | clear => exact Laws.EncodedWordRow.clear h

theorem row_mem_opcodeRows (i : Instr) : i.row ∈ opcodeRows := by
  cases i <;> simp [opcodeRows, Instr.row]

/-- A row of the table accepts only words that the decoder accepts. -/
theorem exists_decode_of_accepts {r : OpcodeRow} {w : Word} (hr : r ∈ opcodeRows)
    (h : r.accepts w = true) : ∃ i, decode w = .ok i := by
  have hw : w &&& r.mask = r.pattern := beq_iff_eq.mp h
  simp only [opcodeRows, List.mem_cons, List.not_mem_nil, or_false] at hr
  rcases hr with rfl | rfl | rfl | rfl | rfl | rfl
  · exact ⟨_, (decode_eq_ok_iff_mask (i := .nop) rfl w).mpr hw⟩
  · exact ⟨_, decode_of_mask_init hw⟩
  · exact ⟨_, decode_of_mask_apply hw⟩
  · exact ⟨_, (decode_eq_ok_iff_mask (i := .ksblock) rfl w).mpr hw⟩
  · exact ⟨_, (decode_eq_ok_iff_mask (i := .transform) rfl w).mpr hw⟩
  · exact ⟨_, (decode_eq_ok_iff_mask (i := .clear) rfl w).mpr hw⟩

/-- The words that match no row are the illegal ones (R85, R86). -/
theorem no_row_accepts_iff (w : Word) :
    (∀ r ∈ opcodeRows, r.accepts w = false) ↔ ∃ e, decode w = .error e := by
  constructor
  · intro hnone
    cases hd : decode w with
    | error e => exact ⟨e, rfl⟩
    | ok i =>
      obtain ⟨hwf, rfl⟩ := wellFormed_and_encode_of_decode hd
      exact absurd ((row_accepts_encode hwf).symm.trans (hnone _ (row_mem_opcodeRows i))) (by decide)
  · rintro ⟨e, he⟩ r hr
    refine Bool.eq_false_iff.mpr fun h => ?_
    obtain ⟨i, hi⟩ := exists_decode_of_accepts hr h
    cases he.symm.trans hi

end Sys2Proof
end

section
/-! The statements about the encoding, beside those of 30_encoding.md above. -/

open Sys2Proof Sys2Proof.Machine

/-- Settles O2: command by command, by the fields of its encoded word. -/
theorem decodeOfEncodeIsTheInstruction : Obligations.DecodeOfEncodeIsTheInstruction := by
  unfold Obligations.DecodeOfEncodeIsTheInstruction
  exact fun i => decode_encode

/-- Settles O3: each answer of the decoder names the fields of the word that its command encodes to. -/
theorem encodeOfDecodeIsTheWord : Obligations.EncodeOfDecodeIsTheWord := by
  unfold Obligations.EncodeOfDecodeIsTheWord
  exact fun w i => wellFormed_and_encode_of_decode

/-- Settles O4: each row by its mask, and no row accepts a word exactly when no command is decoded. -/
theorem decoderIsMatchAndMask : Obligations.DecoderIsMatchAndMask := by
  unfold Obligations.DecoderIsMatchAndMask
  exact fun w => ⟨decode_eq_ok_iff_mask (i := .nop) rfl w, exists_decode_init_iff w, exists_decode_apply_iff w,
    decode_eq_ok_iff_mask (i := .ksblock) rfl w, decode_eq_ok_iff_mask (i := .transform) rfl w,
    decode_eq_ok_iff_mask (i := .clear) rfl w, no_row_accepts_iff w⟩

/-- Settles O1: the published words are computed, and APPLY's for every length. -/
theorem canonicalWordsDecode : Obligations.CanonicalWordsDecode := by
  unfold Obligations.CanonicalWordsDecode
  exact ⟨rfl, rfl, rfl, rfl, rfl, rfl, rfl, rfl, rfl, rfl, rfl, rfl, rfl, rfl, rfl, rfl, rfl, rfl,
    fun L => encode_apply_eq_or⟩

end

section
/-! SUPPORT. The invariant, event by event: each command's end, the reset and every access keep it. -/

namespace Sys2Proof.Machine

/-- A command that ends with a code and changes nothing else keeps the invariant (R100, R182). -/
theorem inv_finish {s : State} (hs : s.Inv) {c : BitVec 4} (hc : c.toNat ≤ 7) : (s.finish c).Inv where
  pending_iff_busy := rfl
  dropped_is_zero := hs.dropped_is_zero
  valid_holds_sigma := hs.valid_holds_sigma
  partial_after_block := hs.partial_after_block
  err_le_seven := hc
  buffers_are_zero := hs.buffers_are_zero

theorem commandError_code_le_seven (e : CommandError) : e.code.toNat ≤ 7 := by
  cases e <;> decide

/-- Where no CipherState is left the invariant asks for clean buffers and a code only (R24). -/
theorem inv_dropped {t : State} (hS : t.cipher = zeros 16) (hp : t.ksPos = 0) (hv : t.valid = false)
    (hpb : t.pending.isSome = t.busy) (he : t.err.toNat ≤ 7)
    (hb : t.work = zeros 16 ∧ t.keystream = zeros 16) : t.Inv where
  pending_iff_busy := hpb
  dropped_is_zero _ := ⟨hS, hp⟩
  valid_holds_sigma h := absurd (h.symm.trans hv) (by decide)
  partial_after_block h := absurd hp h
  err_le_seven := he
  buffers_are_zero := hb

theorem inv_reset : State.reset.Inv :=
  inv_dropped rfl rfl rfl rfl (Nat.zero_le 7) ⟨rfl, rfl⟩

theorem inv_resetEvent (s : State) : s.resetEvent.Inv :=
  inv_dropped rfl rfl rfl rfl (Nat.zero_le 7) ⟨rfl, rfl⟩

theorem inv_initFail {s : State} (hs : s.Inv) (e : CommandError) : (s.initFail e).Inv :=
  inv_dropped rfl rfl rfl rfl (commandError_code_le_seven e) hs.buffers_are_zero

theorem inv_cleared {s : State} (hs : s.Inv) : s.cleared.Inv :=
  inv_dropped rfl rfl rfl rfl (Nat.zero_le 7) hs.buffers_are_zero

theorem inv_initialised {s : State} (hs : s.Inv) : s.initialised.Inv where
  pending_iff_busy := rfl
  dropped_is_zero := nofun
  valid_holds_sigma _ := ⟨rfl, rfl, rfl, rfl⟩
  partial_after_block h := absurd rfl h
  err_le_seven := Nat.zero_le 7
  buffers_are_zero := hs.buffers_are_zero

theorem inv_transformed {s : State} (hs : s.Inv) : s.transformed.Inv where
  pending_iff_busy := rfl
  dropped_is_zero := hs.dropped_is_zero
  valid_holds_sigma := hs.valid_holds_sigma
  partial_after_block := hs.partial_after_block
  err_le_seven := Nat.zero_le 7
  buffers_are_zero := ⟨rfl, hs.buffers_are_zero.2⟩

/-- A new block leaves KS_POS at 0, and SIGMA where it was. -/
theorem inv_blockDelivered {s : State} (hs : s.Inv) (hv : s.valid = true) (hp : s.ksPos = 0) :
    s.blockDelivered.Inv where
  pending_iff_busy := rfl
  dropped_is_zero h := absurd (h.symm.trans hv) (by decide)
  valid_holds_sigma _ := hs.valid_holds_sigma hv
  partial_after_block h := absurd hp h
  err_le_seven := Nat.zero_le 7
  buffers_are_zero := ⟨rfl, rfl⟩

/-- A chunk leaves a partly used block only where its counter is at least 1 (R25): from KS_POS = 0 a chunk
that is not empty moves the counter up, and from another KS_POS the counter was 1 already. -/
theorem one_le_ctr_applied {s : State} {len : Nat} (hs : s.Inv) (hl : len ≤ 64)
    (hc : s.counterAfter len ≤ maxCounter) (hp : (s.applied len).ksPos ≠ 0) :
    1 ≤ (s.applied len).ctr.toNat := by
  have hctr := applied_ctr s hl hc
  rcases counterAfter_cases s hl with ⟨e, h0, -⟩ | ⟨e, -⟩
  · have hpos : s.ksPos ≠ 0 := fun hz => hp (by
      show BitVec.ofNat 6 ((s.ksPos.toNat + len) % 64) = 0
      rw [h0 hz, hz]
      rfl)
    have := hs.partial_after_block hpos
    omega
  · omega

theorem inv_applied {s : State} {len : Nat} (hs : s.Inv) (hl : len ≤ 64) (hv : s.valid = true)
    (hc : s.counterAfter len ≤ maxCounter) : (s.applied len).Inv where
  pending_iff_busy := rfl
  dropped_is_zero h := absurd (h.symm.trans hv) (by decide)
  valid_holds_sigma _ := hs.valid_holds_sigma hv
  partial_after_block := one_le_ctr_applied hs hl hc
  err_le_seven := Nat.zero_le 7
  buffers_are_zero := ⟨rfl, rfl⟩

/-- Every command keeps the invariant, whatever it answers. -/
theorem inv_exec {s t : State} {i : Instr} (hs : s.Inv) (h : exec i s = .next t) : t.Inv := by
  rcases exec_cases h with ⟨e, -, h7, -⟩ | ⟨k, n, e, -, -, rfl, -⟩ | ⟨-, rfl⟩ | ⟨-, rfl⟩ |
    ⟨l, -, hl, hv, hc, rfl⟩ | ⟨-, hv, hp, -, rfl⟩ | ⟨-, rfl⟩ | ⟨-, rfl⟩
  · rw [e]
    exact inv_finish hs h7
  · exact inv_initFail hs e
  · exact inv_finish hs (by decide)
  · exact inv_initialised hs
  · exact inv_applied hs hl hv hc
  · exact inv_blockDelivered hs hv hp
  · exact inv_transformed hs
  · exact inv_cleared hs

/-- An access leaves BUSY and PENDING as they were, or sets both (R33). -/
theorem inv_access {s : State} (hs : s.Inv) (a : Access) (m : Nat) :
    ((s.countAccess m).perform a).Inv := by
  obtain ⟨hS, hv, hp, he, -, hw, hk, hbp⟩ := perform_keeps (s.countAccess m) a
  constructor
  · rcases hbp with ⟨hb, hpend⟩ | ⟨hb, hpend⟩
    · rw [hb, hpend]; exact hs.pending_iff_busy
    · rw [hb, hpend]
  · rw [hv, hS, hp]; exact hs.dropped_is_zero
  · rw [hv, hS]; exact hs.valid_holds_sigma
  · rw [hp, State.ctr_eq, hS]; exact hs.partial_after_block
  · rw [he]; exact hs.err_le_seven
  · rw [hw, hk]; exact hs.buffers_are_zero

/-- Every step keeps the invariant. -/
theorem inv_step {s t : State} (hs : s.Inv) (h : step s = .next t) : t.Inv := by
  rcases step_cases h with ⟨w, e, -, -, -, rfl⟩ | ⟨i, -, hx⟩ | ⟨-, rfl⟩ | ⟨a, m, -, rfl⟩ | ⟨-, -, rfl⟩
  · exact inv_finish hs (by decide)
  · exact inv_exec hs hx
  · exact inv_resetEvent s
  · exact inv_access hs a m
  · exact hs

/-! ## Under the invariant the machine goes on -/

/-- A step of the ENGINE with a command in flight goes on, and ends the command (R205). -/
theorem engine_goes_on {s : State} {w : Word} (he : s.engineMoves = true) (hw : s.pending = some w) :
    ∃ t, step s = .next t ∧ t.busy = false := by
  cases hd : decode w with
  | error e => exact ⟨s.finish 1, step_of_illegal he hw hd, rfl⟩
  | ok i =>
    obtain ⟨t, ht, hb, -⟩ := exec_answers i s
    exact ⟨t, (step_of_completes ⟨he, w, hw, hd⟩).trans ht, hb⟩

/-- The ENGINE moves only while BUSY = 1. -/
theorem busy_of_engineMoves {s : State} (he : s.engineMoves = true) : s.busy = true :=
  (Bool.and_eq_true_iff.mp he).1

/-- With nothing to do a step changes nothing (R201, log entry 4). -/
theorem step_of_idle {s : State} (he : s.engineMoves = false) (hn : s.nextStmt = none) :
    step s = .next s := by
  unfold step
  rw [if_neg (by simp [he]), hn]

/-- A step of the host goes on, or is refused by name. -/
theorem host_goes_on_or_refused {s : State} (he : s.engineMoves = false) :
    (∃ t, step s = .next t) ∨ step s = .refused .multiMaster := by
  cases hn : s.nextStmt with
  | none => exact .inl ⟨s, step_of_idle he hn⟩
  | some x =>
    cases x with
    | reset => exact .inl ⟨_, step_of_resets ⟨he, hn⟩⟩
    | access a m =>
      cases ha : s.admits a m with
      | true => exact .inl ⟨_, step_of_hostAccesses ⟨he, hn, ha⟩⟩
      | false => exact .inr (step_of_not_admits he hn ha)

end Sys2Proof.Machine
end

section
/-! The statements about the invariant. -/

open Sys2Proof Sys2Proof.Machine

/-- Settles O51: by the events of the step. -/
theorem stepKeepsTheInvariant : Obligations.StepKeepsTheInvariant := by
  unfold Obligations.StepKeepsTheInvariant
  exact fun s t => inv_step

/-- Settles O52: BUSY = 1 comes with a pending word, so the ENGINE has a command to complete. -/
theorem noFaultUnderTheInvariant : Obligations.NoFaultUnderTheInvariant := by
  unfold Obligations.NoFaultUnderTheInvariant
  intro s hs
  cases he : s.engineMoves with
  | true =>
    obtain ⟨w, hw⟩ := Option.isSome_iff_exists.mp (hs.pending_iff_busy.trans (busy_of_engineMoves he))
    obtain ⟨t, ht, -⟩ := engine_goes_on he hw
    exact .inl ⟨t, ht⟩
  | false => exact host_goes_on_or_refused he

/-- Settles O50: reset leaves no CipherState, no command and clean buffers. -/
theorem resetMeetsTheInvariant : Obligations.ResetMeetsTheInvariant := by
  unfold Obligations.ResetMeetsTheInvariant
  exact inv_reset

end

section
/-! SUPPORT. Words placed for the ENGINE, turns, the wait for a completion, and what the port lets through:
rules that the statements about the step and the window cite, beside those of Laws/. -/

namespace Sys2Proof.Machine

/-! ## The ENGINE and its wait (R205) -/

/-- A word that `withFetchWord` places is completed by the very next step. -/
theorem completes_withFetchWord (s : State) {w : Nat} {i : Instr} (h : decodeTableWord 32 w = some i) :
    (s.withFetchWord 32 w).completes i := by
  unfold decodeTableWord at h
  refine ⟨rfl, _, rfl, ?_⟩
  cases hd : decode (BitVec.ofNat 32 (w % 2 ^ 32)) with
  | error e => rw [hd] at h; cases h
  | ok j => rw [hd] at h; cases h; rfl

theorem not_engineMoves_of_idle {s : State} (hb : s.busy = false) : s.engineMoves = false :=
  Bool.and_eq_false_iff.mpr (.inl hb)

/-- While BUSY = 1 the host moves only where some wait is left, and it then has a statement. -/
theorem wait_pos_of_busy {s : State} (hb : s.busy = true) (he : s.engineMoves = false) :
    s.wait ≠ 0 ∧ s.nextStmt ≠ none := by
  simpa [State.engineMoves, hb, Option.isSome_iff_ne_none] using he

/-- While BUSY = 1 no access draws a new wait. -/
theorem perform_wait_of_busy {s : State} (a : Access) (hb : s.busy = true) :
    (s.perform a).wait = s.wait := by
  rcases perform_cases s a with ⟨r, e⟩ | ⟨v, p, e⟩ | ⟨off, v, r, _, _, _, hn, e⟩
  · rw [e]; rfl
  · rw [e]; rfl
  · exact absurd (hb.symm.trans hn) (by decide)

/-- Every command ends with BUSY = 0 (R100). -/
theorem busy_of_exec {s t : State} {i : Instr} (h : exec i s = .next t) : t.busy = false := by
  obtain ⟨u, hu, hb, -⟩ := exec_answers i s
  cases hu.symm.trans h
  exact hb

/-- While a command is in flight, a step ends it, or is an access that leaves the hardware alone and takes 1
from the wait. -/
theorem busy_step_cases {s t : State} (hb : s.busy = true) (h : step s = .next t) :
    t.busy = false ∨ (t.hardware = s.hardware ∧ t.wait + 1 = s.wait) := by
  rcases step_cases h with ⟨w, e, -, -, -, rfl⟩ | ⟨i, -, hx⟩ | ⟨-, rfl⟩ | ⟨a, m, ⟨he, -⟩, rfl⟩ | ⟨he, hn, -⟩
  · exact .inl rfl
  · exact .inl (busy_of_exec hx)
  · exact .inl rfl
  · have hwait : ((s.countAccess m).perform a).wait = s.wait - 1 :=
      perform_wait_of_busy (s := s.countAccess m) a hb
    have hpos := (wait_pos_of_busy hb he).1
    exact .inr ⟨perform_hardware_of_busy (s := s.countAccess m) a hb, by omega⟩
  · exact absurd hn (wait_pos_of_busy hb he).2

/-- With BUSY = 1 a run of `wait + 1` steps passes a state with BUSY = 0. -/
theorem exists_idle_of_run (k : Nat) {s t : State} (hb : s.busy = true) (hk : s.wait = k)
    (h : Host.Core.run core (k + 1) s = .next t) :
    ∃ n u, n ≤ k + 1 ∧ Host.Core.run core n s = .next u ∧ u.busy = false := by
  induction k generalizing s with
  | zero =>
    obtain ⟨u, hu, -⟩ := next_of_run_succ core h
    rcases busy_step_cases hb hu with hub | ⟨-, hw⟩
    · exact ⟨1, u, Nat.le_refl 1, run_succ_of_next core hu 0, hub⟩
    · omega
  | succ k ih =>
    obtain ⟨u, hu, hrun⟩ := next_of_run_succ core h
    rcases busy_step_cases hb hu with hub | ⟨hh, hw⟩
    · exact ⟨1, u, by omega, run_succ_of_next core hu 0, hub⟩
    · obtain ⟨n, v, hn, hv, hvb⟩ := ih ((busy_eq_of_hardware_eq hh).trans hb) (by omega) hrun
      exact ⟨n + 1, v, by omega, (run_succ_of_next core hu n).trans hv, hvb⟩

/-- A step of the ENGINE is an illegal word's or a command's. -/
theorem engine_step_cases {s t : State} (he : s.engineMoves = true) (h : step s = .next t) :
    (t = s.finish 1 ∧ ∀ i, ¬ s.completes i) ∨ ∃ i, s.completes i ∧ exec i s = .next t := by
  rcases step_cases h with ⟨w, e, -, hw, hd, rfl⟩ | ⟨i, hc, hx⟩ | ⟨hr, -⟩ | ⟨a, m, ha, -⟩ | ⟨hn, -⟩
  · refine .inl ⟨rfl, fun i ⟨_, w', hw', hd'⟩ => ?_⟩
    cases hw.symm.trans hw'
    cases hd.symm.trans hd'
  · exact .inr ⟨i, hc, hx⟩
  · exact absurd (he.symm.trans hr.1) (by decide)
  · exact absurd (he.symm.trans ha.1) (by decide)
  · exact absurd (he.symm.trans hn) (by decide)

/-- A command that is not INIT and ends with an error writes ERR alone (R182). -/
theorem eq_finish_of_err {s t : State} {i : Instr} (h : exec i s = .next t) (hi : ∀ k n, i ≠ .init k n)
    (he : t.err ≠ 0) : t = s.finish t.err := by
  rcases exec_cases h with ⟨e, -⟩ | ⟨k, n, -, hk, -⟩ | ⟨-, rfl⟩ | ⟨hk, -⟩ | ⟨l, -, -, -, -, rfl⟩ |
    ⟨-, -, -, -, rfl⟩ | ⟨-, rfl⟩ | ⟨-, rfl⟩
  · exact e
  · exact absurd hk (hi k n)
  · exact absurd rfl he
  · exact absurd hk (hi 32 8)
  · exact absurd rfl he
  · exact absurd rfl he
  · exact absurd rfl he
  · exact absurd rfl he

/-- An INIT that ends with an error is `initFail` with one of its two codes (R104). -/
theorem eq_initFail_of_err {s t : State} {klen nlen : Nat} (h : execInit klen nlen s = .next t)
    (he : t.err ≠ 0) :
    t = s.dropCipher.zeroiseStaging.finish t.err ∧ (t.err = 2 ∨ t.err = 3) := by
  rcases execInit_cases s klen nlen with ⟨-, e⟩ | ⟨-, -, e⟩ | ⟨-, -, e⟩ <;> cases e.symm.trans h
  · exact ⟨rfl, .inl rfl⟩
  · exact ⟨rfl, .inr rfl⟩
  · exact absurd rfl he

/-! ## Turns (R195, log entry 11) -/

/-- Another master's access is refused where it does not begin a turn. -/
theorem admits_eq_false {s : State} {a : Access} {m m' : Nat} (ht : s.turn = some m) (hne : m ≠ m')
    (hb : s.beginsTurn a = false) : s.admits a m' = false := by
  simp [State.admits, ht, hne, hb]

theorem admits_of_beginsTurn {s : State} {a : Access} (m : Nat) (h : s.beginsTurn a = true) :
    s.admits a m = true := by
  simp [State.admits, h]

theorem admits_of_turn {s : State} (a : Access) {m : Nat} (h : s.turn = none ∨ s.turn = some m) :
    s.admits a m = true := by
  rcases h with h | h <;> simp [State.admits, h]

/-- An admitted access goes on, and the turn is its master's. -/
theorem turn_of_admitted {s : State} {a : Access} {m : Nat} (he : s.engineMoves = false)
    (hn : s.nextStmt = some (.access a m)) (ha : s.admits a m = true) :
    ∃ t, step s = .next t ∧ t.turn = some m :=
  ⟨_, step_of_hostAccesses ⟨he, hn, ha⟩, perform_turn (s.countAccess m) a⟩

/-- What is not STATUS, or comes while BUSY = 1, is no read that begins a turn. -/
theorem idle_and_status_eq_false {s : State} {off : Offset} (h : off ≠ 0x04 ∨ s.busy = true) :
    (!s.busy && off == 0x04) = false := by
  rcases h with h | h
  · rw [beq_eq_false_iff_ne.mpr h, Bool.and_false]
  · rw [h]; rfl

/-- No read but one of 4 bytes at STATUS with BUSY = 0 begins a turn. -/
theorem beginsTurn_read_eq_false {s : State} {off : Offset} {n : Nat}
    (h : n ≠ 4 ∨ off ≠ 0x04 ∨ s.busy = true) : s.beginsTurn (.read off n) = false := by
  show (!s.busy && off == 0x04 && n == 4) = false
  rcases h with h | h
  · rw [beq_eq_false_iff_ne.mpr h, Bool.and_false]
  · rw [idle_and_status_eq_false h, Bool.false_and]

/-- A STATUS read with BUSY = 0 begins a turn, by `RD`, `RD ==` or BNZ. -/
theorem beginsTurn_of_status_read {s : State} {a : Access} (hb : s.busy = false)
    (ha : a = .read 0x04 4 ∨ (∃ v, a = .readExpect 0x04 v) ∨ ∃ mask l, a = .branchNonzero 0x04 mask l) :
    s.beginsTurn a = true := by
  rcases ha with rfl | ⟨v, rfl⟩ | ⟨mask, l, rfl⟩ <;> simp [State.beginsTurn, hb]

/-! ## The window (R50, R51) -/

theorem windowOffset_inside (off : Offset) : windowOffset (Config.baseAddr + off.toNat) = some off := by
  have h := off.isLt
  unfold windowOffset
  rw [if_pos (by omega), Nat.add_sub_cancel_left, BitVec.ofNat_toNat, BitVec.setWidth_eq]

theorem windowOffset_outside {addr : Nat} (h : addr < Config.baseAddr ∨ Config.baseAddr + 0x100 ≤ addr) :
    windowOffset addr = none := if_neg (by omega)

/-! ## Reads (R58, R206) -/

/-- A read that the port answers is that answer, whatever the branch. -/
theorem hostRead_of_ok {s : State} {off : Offset} {n : Nat} {v : Word} (next : Word → Nat)
    (h : memRead s off n = .ok v) : s.hostRead off n next = s.respond (.data v) (next v) := by
  unfold State.hostRead
  rw [h]

/-- The step of a read that the port answers: the value, where to go on, and nothing else (R58). -/
theorem step_of_read {s : State} {a : Access} {m n : Nat} {off : Offset} {v : Word} {next : Word → Nat}
    (ha : s.hostAccesses a m) (hread : (s.countAccess m).perform a = (s.countAccess m).hostRead off n next)
    (hv : memRead (s.countAccess m) off n = .ok v) :
    ∃ t, step s = .next t ∧ t.hardware = s.hardware ∧ t.faults = s.faults ∧ t.pc = next v ∧
      t.responses = s.responses ++ [.data v] := by
  rw [hostRead_of_ok next hv] at hread
  exact ⟨_, (step_of_hostAccesses ha).trans (congrArg _ hread), rfl, rfl, rfl, rfl⟩

/-- A mapped register other than STATUS cannot be read while BUSY = 1. -/
theorem memRead_busy {s : State} {off : Offset} {r : Reg} (ha : off.toNat % 4 = 0)
    (hr : regAt off = some r) (hb : s.busy = true) (hne : off ≠ 0x04) :
    memRead s off 4 = .error .busyAccess := by
  have h4 : off.toNat ≠ 0x04 := fun e => hne (offset_eq_of_toNat e)
  exact memRead_error.mpr
    (portCheck_busy ha hr hb (beq_eq_false_iff_ne.mpr (ne_status_of_regAt ha h4 hr)))

/-- No mapped register can be written while BUSY = 1. -/
theorem memWrite_busy {s : State} {off : Offset} {r : Reg} (v : Word) (ha : off.toNat % 4 = 0)
    (hr : regAt off = some r) (hb : s.busy = true) : memWrite s off 4 v = .error .busyAccess :=
  memWrite_error.mpr (portCheck_busy ha hr hb rfl)

/-- A read of an offset whose register reads the same in two states with the same BUSY. -/
theorem memRead_congr {s t : State} {off : Offset} (n : Nat) (hb : s.busy = t.busy)
    (hr : off.toNat % 4 = 0 → ∀ r, regAt off = some r → s.readReg r = t.readReg r) :
    memRead s off n = memRead t off n := by
  unfold memRead
  rw [portCheck_congr hb]
  split
  · rfl
  · next r h =>
    obtain ⟨-, ha, hreg, -⟩ := portCheck_ok h
    rw [hr ha r hreg]

/-! ## DATA_IN (R30, R59) -/

/-- The DATA_IN word at an aligned offset. -/
theorem offset_of_regAt_dataIn {off : Offset} {i : Fin 16} (ha : off.toNat % 4 = 0)
    (hr : regAt off = some (.dataIn i)) : off = BitVec.ofNat 8 (0x40 + 4 * i) := by
  have h : 0x40 ≤ off.toNat ∧ off.toNat < 0x80 ∧ i.val = (off.toNat - 0x40) / 4 := by
    simpa [hr] using regAt_cases off
  exact offset_eq_of_toNat (by omega)

/-- A write to any other register leaves a DATA_IN word alone. -/
theorem writeReg_dataIn_of_ne (s : State) (v : Word) {r : Reg} {i : Fin 16} (h : r ≠ .dataIn i) :
    (s.writeReg v r).dataIn[i] = s.dataIn[i] := by
  cases r with
  | dataIn j =>
    have hij : j.val ≠ i.val := fun e => h (congrArg _ (Fin.ext e))
    exact Vector.getElem_set_ne j.isLt i.isLt hij
  | _ => rfl

theorem writeReg_dataIn_same (s : State) (v : Word) (i : Fin 16) :
    (s.writeReg v (.dataIn i)).dataIn[i] = v := Vector.getElem_set_self i.isLt

/-- A write to a DATA_IN word is seen through no other register. -/
theorem readReg_writeReg_dataIn_of_ne (s : State) (v : Word) {i : Fin 16} {r : Reg} (h : r ≠ .dataIn i) :
    (s.writeReg v (.dataIn i)).readReg r = s.readReg r := by
  cases r with
  | dataIn j => exact writeReg_dataIn_of_ne s v h.symm
  | _ => rfl

end Sys2Proof.Machine
end

section
/-! The statements about the step, the turns and the register window. -/

open Sys2Proof Sys2Proof.Machine

/-- Settles O9: while BUSY = 1 a step ends the command or takes 1 from the wait. -/
theorem pendingCommandCompletes : Obligations.PendingCommandCompletes := by
  unfold Obligations.PendingCommandCompletes
  exact fun s t _ hb h => exists_idle_of_run s.wait hb rfl h

/-- Settles O20: the ENGINE's step is an illegal word's, or a command's error; after it BUSY is 0. -/
theorem failedCommandWritesOnlyErr : Obligations.FailedCommandWritesOnlyErr := by
  unfold Obligations.FailedCommandWritesOnlyErr
  intro s t he h herr
  have hends := engine_step_cases he h
  refine ⟨fun hinit => ?_, fun ⟨klen, nlen, hc⟩ => eq_initFail_of_err (exec_of_completes hc h) herr,
    fun v => ?_⟩
  · rcases hends with ⟨rfl, -⟩ | ⟨i, hc, hx⟩
    · rfl
    · exact eq_finish_of_err hx (fun k n hi => hinit k n (hi ▸ hc)) herr
  · have hb : t.busy = false := by
      rcases hends with ⟨rfl, -⟩ | ⟨i, -, hx⟩
      · rfl
      · exact busy_of_exec hx
    exact ⟨t.startCommand v, memWrite_of_idle (r := .cmd) v (by decide) rfl hb, rfl, rfl⟩

/-- Settles O43: the checks of a mapped offset let nothing but STATUS through. -/
theorem busyAllowsOnlyStatusReads : Obligations.BusyAllowsOnlyStatusReads := by
  unfold Obligations.BusyAllowsOnlyStatusReads
  intro s off v hb ha hmapped
  obtain ⟨r, hr⟩ := exists_regAt (off := off) (by omega)
  refine ⟨memRead_busy ha hr hb, fun h4 => ?_, memWrite_busy v ha hr hb⟩
  rw [h4, memRead_status, status_of_busy hb]

/-- Settles O45: an answered read is `respond` with its value, and BNZ's failing read is `busError`. -/
theorem readsHaveNoSideEffects : Obligations.ReadsHaveNoSideEffects := by
  unfold Obligations.ReadsHaveNoSideEffects
  refine ⟨fun s off n m v ha => step_of_read ha rfl, fun s off m expected v ha => step_of_read ha rfl,
    fun s off mask l m v ha => step_of_read ha rfl, fun s off mask l m r ha hr => ?_⟩
  have hp := hostRead_of_error (branchTarget s.pc mask l) (memRead_error_countAccess m hr)
  exact ⟨_, (step_of_hostAccesses ha).trans (congrArg _ hp), rfl, rfl⟩

/-- Settles O46: the write is `writeReg` of the one register at its offset, which no other offset reads. -/
theorem dataInReadsBackWhatWasWritten : Obligations.DataInReadsBackWhatWasWritten := by
  unfold Obligations.DataInReadsBackWhatWasWritten
  intro s t off v hlo hhi h
  obtain ⟨r, -, ha, hr, hb, rfl⟩ := memWrite_ok h
  cases hr.symm.trans (regAt_dataIn hlo hhi)
  refine ⟨?_, ?_, fun off' hne n => memRead_congr n rfl fun ha' r' hr' => ?_⟩
  · rw [← set_eq_setIfInBounds s.dataIn (by omega)]
    rfl
  · refine (memRead_of_idle ha hr ?_).trans (congrArg _ (writeReg_dataIn_same s v _))
    exact hb
  · refine readReg_writeReg_dataIn_of_ne s v fun e => hne ?_
    exact (offset_of_regAt_dataIn ha' (e ▸ hr')).trans (offset_of_regAt_dataIn ha hr).symm

/-- Settles O60: the step is `memWrite` and its answer; a write changes neither answers, FAULTS nor program. -/
theorem acceptedWriteIsMemWrite : Obligations.AcceptedWriteIsMemWrite := by
  unfold Obligations.AcceptedWriteIsMemWrite
  intro s u off n m v ha hw
  refine ⟨_, (step_of_hostAccesses ha).trans (congrArg _ (perform_write_of_ok hw)), ?_⟩
  obtain ⟨r, -, -, -, -, rfl⟩ := memWrite_ok hw
  refine ⟨?_, rfl, by simp, by simp⟩
  simp only [State.respond, State.writeReg_responses, State.countAccess_responses, State.countAccess_pc]

/-- Settles O7: the command completes at that state, and a placed word's at its very next step. -/
theorem stepRunsTheDecodedInstruction : Obligations.StepRunsTheDecodedInstruction := by
  unfold Obligations.StepRunsTheDecodedInstruction
  exact ⟨fun s i => step_of_completes, fun s w i h => step_of_completes (completes_withFetchWord s h)⟩

/-- Settles O10: with BUSY = 0 the ENGINE does not move, and the host has no statement. -/
theorem idleStepChangesNothing : Obligations.IdleStepChangesNothing := by
  unfold Obligations.IdleStepChangesNothing
  exact fun s hb => step_of_idle (not_engineMoves_of_idle hb)

/-- Settles O11: out of turn only a STATUS read with BUSY = 0 is admitted, and in turn every access. -/
theorem interleavedMastersAreRefused : Obligations.InterleavedMastersAreRefused := by
  unfold Obligations.InterleavedMastersAreRefused
  refine ⟨?_, fun s a m he hn ht => turn_of_admitted he hn (admits_of_turn a ht)⟩
  intro s m m' he ht hne asks
  have hrefused : ∀ {a}, asks a → s.beginsTurn a = false → step s = .refused .multiMaster :=
    fun hn hb => step_of_not_admits he hn (admits_eq_false ht hne hb)
  exact ⟨fun off n v hn => hrefused hn rfl, fun off n hn h => hrefused hn (beginsTurn_read_eq_false h),
    fun off v hn h => hrefused hn (idle_and_status_eq_false h),
    fun off mask l hn h => hrefused hn (idle_and_status_eq_false h),
    fun a hn hb ha => turn_of_admitted he hn
      (admits_of_beginsTurn m' (beginsTurn_of_status_read hb ha))⟩

/-- Settles O47: the offset is the distance from BASE_ADDR, where that is below 256. -/
theorem windowHas256Offsets : Obligations.WindowHas256Offsets := by
  unfold Obligations.WindowHas256Offsets
  exact ⟨windowOffset_inside, fun addr => windowOffset_outside⟩

end

section
/-! SUPPORT. What the bus cannot see: two states that differ in key, nonce and staging registers only take the
same accesses, and stay so (R27 to R29). -/

namespace Sys2Proof.Machine

/-- The state with another CipherState and other staging registers. -/
def State.withSecrets (s : State) (C : Block) (K : Vector Word 8) (N : Vector Word 2) : State :=
  { s with cipher := C, keyIn := K, nonceIn := N }

theorem sameButSecrets_iff {s t : State} : sameButSecrets s t ↔
    ∃ C K N, t = s.withSecrets C K N ∧ C[12] = s.cipher[12] ∧ C[13] = s.cipher[13] := by
  constructor
  · rintro ⟨h, h12, h13⟩
    exact ⟨t.cipher, t.keyIn, t.nonceIn, h, h12, h13⟩
  · rintro ⟨C, K, N, rfl, h12, h13⟩
    exact ⟨rfl, h12, h13⟩

/-- No register shows a secret (R27, R60). -/
theorem readReg_of_sameButSecrets {s t : State} (h : sameButSecrets s t) (r : Reg) :
    t.readReg r = s.readReg r := by
  obtain ⟨C, K, N, rfl, h12, h13⟩ := sameButSecrets_iff.mp h
  cases r with
  | ctrLo => exact h12
  | ctrHi => exact h13
  | _ => rfl

theorem busy_of_sameButSecrets {s t : State} (h : sameButSecrets s t) : t.busy = s.busy := by
  obtain ⟨C, K, N, rfl, -⟩ := sameButSecrets_iff.mp h
  rfl

theorem pc_of_sameButSecrets {s t : State} (h : sameButSecrets s t) : t.pc = s.pc := by
  obtain ⟨C, K, N, rfl, -⟩ := sameButSecrets_iff.mp h
  rfl

/-- The host's choice and its turn depend on no secret. -/
theorem agents_of_sameButSecrets {s t : State} (h : sameButSecrets s t) :
    t.engineMoves = s.engineMoves ∧ t.nextStmt = s.nextStmt ∧ ∀ a m, t.admits a m = s.admits a m := by
  obtain ⟨C, K, N, rfl, -⟩ := sameButSecrets_iff.mp h
  exact ⟨rfl, rfl, fun a m => by cases a <;> rfl⟩

theorem countAccess_sameButSecrets {s t : State} (h : sameButSecrets s t) (m : Nat) :
    sameButSecrets (s.countAccess m) (t.countAccess m) := by
  obtain ⟨C, K, N, rfl, h12, h13⟩ := sameButSecrets_iff.mp h
  exact ⟨rfl, h12, h13⟩

theorem respond_sameButSecrets {s t : State} (h : sameButSecrets s t) (x : Response) (p : Nat) :
    sameButSecrets (s.respond x p) (t.respond x p) := by
  obtain ⟨C, K, N, rfl, h12, h13⟩ := sameButSecrets_iff.mp h
  exact ⟨rfl, h12, h13⟩

theorem busError_sameButSecrets {s t : State} (h : sameButSecrets s t) (r : BusReason) :
    sameButSecrets (s.busError r) (t.busError r) := by
  obtain ⟨C, K, N, rfl, h12, h13⟩ := sameButSecrets_iff.mp h
  exact ⟨rfl, h12, h13⟩

theorem resetEvent_sameButSecrets {s t : State} (h : sameButSecrets s t) :
    sameButSecrets s.resetEvent t.resetEvent := by
  obtain ⟨C, K, N, rfl, -⟩ := sameButSecrets_iff.mp h
  exact ⟨rfl, rfl, rfl⟩

/-- A write stores the same word on both sides, or goes to a staging register. -/
theorem writeReg_sameButSecrets {s t : State} (h : sameButSecrets s t) (v : Word) (r : Reg) :
    sameButSecrets (s.writeReg v r) (t.writeReg v r) := by
  obtain ⟨C, K, N, rfl, h12, h13⟩ := sameButSecrets_iff.mp h
  cases r <;> exact ⟨rfl, h12, h13⟩

theorem hostRead_sameButSecrets {s t : State} (h : sameButSecrets s t) (off : Offset) (n : Nat)
    (next : Word → Nat) : sameButSecrets (s.hostRead off n next) (t.hostRead off n next) := by
  have hread : memRead t off n = memRead s off n :=
    memRead_congr n (busy_of_sameButSecrets h) fun _ r _ => readReg_of_sameButSecrets h r
  cases hs : memRead s off n with
  | error r =>
    rw [hostRead_of_error next hs, hostRead_of_error next (hread.trans hs)]
    exact busError_sameButSecrets h r
  | ok v =>
    rw [hostRead_of_ok next hs, hostRead_of_ok next (hread.trans hs)]
    exact respond_sameButSecrets h _ _

theorem hostWrite_sameButSecrets {s t : State} (h : sameButSecrets s t) (off : Offset) (n : Nat) (v : Word) :
    sameButSecrets (s.hostWrite off n v) (t.hostWrite off n v) := by
  unfold State.hostWrite memWrite
  rw [portCheck_congr (busy_of_sameButSecrets h), pc_of_sameButSecrets h]
  cases portCheck s off n fun _ => false with
  | error r => exact busError_sameButSecrets h r
  | ok r => exact respond_sameButSecrets (writeReg_sameButSecrets h v r) _ _

/-- The same access keeps two such states alike. -/
theorem perform_sameButSecrets {s t : State} (h : sameButSecrets s t) (a : Access) :
    sameButSecrets (s.perform a) (t.perform a) := by
  have hpc := pc_of_sameButSecrets h
  cases a with
  | read off n => simpa only [State.perform, hpc] using hostRead_sameButSecrets h off n fun _ => s.pc + 1
  | write off n v => exact hostWrite_sameButSecrets h off n v
  | readExpect off v => simpa only [State.perform, hpc] using hostRead_sameButSecrets h off 4 fun _ => s.pc + 1
  | branchNonzero off mask l =>
    simpa only [State.perform, hpc] using hostRead_sameButSecrets h off 4 (branchTarget s.pc mask l)

/-- A step of the host that goes on is the same step in both states. -/
theorem step_sameButSecrets {s t s' : State} (h : sameButSecrets s t) (he : s.engineMoves = false)
    (hs : step s = .next s') : ∃ t', step t = .next t' ∧ sameButSecrets s' t' := by
  obtain ⟨hte, htn, hta⟩ := agents_of_sameButSecrets h
  rcases step_cases hs with ⟨w, e, he', -⟩ | ⟨i, hc, -⟩ | ⟨⟨-, hn⟩, rfl⟩ | ⟨a, m, ⟨-, hn, ha⟩, rfl⟩ |
    ⟨-, hn, rfl⟩
  · exact absurd (he'.symm.trans he) (by decide)
  · exact absurd (hc.1.symm.trans he) (by decide)
  · exact ⟨_, step_of_resets ⟨hte.trans he, htn.trans hn⟩, resetEvent_sameButSecrets h⟩
  · exact ⟨_, step_of_hostAccesses ⟨hte.trans he, htn.trans hn, (hta a m).trans ha⟩,
      perform_sameButSecrets (countAccess_sameButSecrets h m) a⟩
  · exact ⟨t, step_of_idle (hte.trans he) (htn.trans hn), h⟩

/-- A step of the host is refused for an access that its master may not make. -/
theorem not_admits_of_refused {s : State} {r : Refusal} (he : s.engineMoves = false)
    (h : step s = .refused r) :
    r = .multiMaster ∧ ∃ a m, s.nextStmt = some (.access a m) ∧ s.admits a m = false := by
  cases hn : s.nextStmt with
  | none => cases h.symm.trans (step_of_idle he hn)
  | some x =>
    cases x with
    | reset => cases h.symm.trans (step_of_resets ⟨he, hn⟩)
    | access a m =>
      cases ha : s.admits a m with
      | true => cases h.symm.trans (step_of_hostAccesses ⟨he, hn, ha⟩)
      | false =>
        cases h.symm.trans (step_of_not_admits he hn ha)
        exact ⟨rfl, a, m, rfl, ha⟩

end Sys2Proof.Machine
end

section
/-! SUPPORT. The writers of DATA_OUT, DATA_IN, the staging registers and FAULTS, by the events of a step. -/

namespace Sys2Proof.Machine

/-- An access that changes a word of DATA_IN is a write of that word to its offset (R30). -/
theorem perform_dataIn_ne {s : State} {a : Access} {i : Fin 16}
    (h : (s.perform a).dataIn[i] ≠ s.dataIn[i]) :
    ∃ v, a = .write (BitVec.ofNat 8 (0x40 + 4 * i)) 4 v ∧ (s.perform a).dataIn[i] = v := by
  rcases perform_cases s a with ⟨r, e⟩ | ⟨v, p, e⟩ | ⟨off, v, r, rfl, ha, hr, -, e⟩ <;> rw [e] at h
  · exact absurd rfl h
  · exact absurd rfl h
  · obtain rfl : r = .dataIn i := by
      by_contra hne
      exact h (writeReg_dataIn_of_ne s v hne)
    rw [e, offset_of_regAt_dataIn ha hr]
    exact ⟨v, rfl, writeReg_dataIn_same s v i⟩

/-- A register whose write changes the staging registers stands in their offsets (R28, R29). -/
theorem staging_offset {s : State} {v : Word} {off : Offset} {r : Reg} (hr : regAt off = some r)
    (h : (s.writeReg v r).keyIn ≠ s.keyIn ∨ (s.writeReg v r).nonceIn ≠ s.nonceIn) :
    0x10 ≤ off.toNat ∧ off.toNat < 0x38 := by
  have hoff := regAt_cases off
  cases r with
  | keyIn k =>
    have hk : 0x10 ≤ off.toNat ∧ off.toNat < 0x30 ∧ k.val = (off.toNat - 0x10) / 4 := by
      simpa [hr] using hoff
    omega
  | nonceIn j =>
    have hj : 0x30 ≤ off.toNat ∧ off.toNat < 0x38 ∧ j.val = (off.toNat - 0x30) / 4 := by
      simpa [hr] using hoff
    omega
  | _ => exact absurd h (by simp [State.writeReg])

/-- An access that changes the staging registers is a write to one of them. -/
theorem perform_staging_ne {s : State} {a : Access}
    (h : (s.perform a).keyIn ≠ s.keyIn ∨ (s.perform a).nonceIn ≠ s.nonceIn) :
    ∃ off v, a = .write off 4 v ∧ 0x10 ≤ off.toNat ∧ off.toNat < 0x38 := by
  rcases perform_cases s a with ⟨r, e⟩ | ⟨v, p, e⟩ | ⟨off, v, r, rfl, -, hr, -, e⟩ <;> rw [e] at h
  · exact absurd h (by simp)
  · exact absurd h (by simp)
  · exact ⟨off, v, rfl, staging_offset hr h⟩

/-- INIT zeroises the staging registers, whether or not it succeeds (R208). -/
theorem staging_of_init {s t : State} {klen nlen : Nat} (h : execInit klen nlen s = .next t) :
    t.keyIn = zeros 8 ∧ t.nonceIn = zeros 2 := by
  rcases execInit_cases s klen nlen with ⟨-, e⟩ | ⟨-, -, e⟩ | ⟨-, -, e⟩ <;> cases e.symm.trans h
  · exact ⟨rfl, rfl⟩
  · exact ⟨rfl, rfl⟩
  · exact ⟨rfl, rfl⟩

/-- No command touches FAULTS. -/
theorem exec_faults {s t : State} {i : Instr} (h : exec i s = .next t) : t.faults = s.faults := by
  rcases exec_cases h with ⟨e, -⟩ | ⟨k, n, e, -, -, rfl, -⟩ | ⟨-, rfl⟩ | ⟨-, rfl⟩ | ⟨l, -, -, -, -, rfl⟩ |
    ⟨-, -, -, -, rfl⟩ | ⟨-, rfl⟩ | ⟨-, rfl⟩
  · rw [e]; rfl
  all_goals rfl

/-- A step leaves FAULTS alone, or is the bus error of an access (R39, R57). -/
theorem step_faults {s t : State} (h : step s = .next t) :
    t.faults = s.faults ∨ ∃ a m r, s.hostAccesses a m ∧ t = (s.countAccess m).busError r := by
  rcases step_cases h with ⟨w, e, -, -, -, rfl⟩ | ⟨i, -, hx⟩ | ⟨-, rfl⟩ | ⟨a, m, ha, rfl⟩ | ⟨-, -, rfl⟩
  · exact .inl rfl
  · exact .inl (exec_faults hx)
  · exact .inl rfl
  · rcases perform_cases (s.countAccess m) a with ⟨r, e⟩ | ⟨v, p, e⟩ | ⟨off, v, r, -, -, -, -, e⟩ <;> rw [e]
    · exact .inr ⟨a, m, r, ha, rfl⟩
    · exact .inl rfl
    · exact .inl (by simp)
  · exact .inl rfl

end Sys2Proof.Machine
end

section
/-! The statements about what a host can read, and about the writers of the buffers and of FAULTS. -/

open Sys2Proof Sys2Proof.Machine

/-- Settles O48: every step of the host is the same in two states that differ in secrets only. -/
theorem hostNeverReadsKeyMaterial : Obligations.HostNeverReadsKeyMaterial := by
  unfold Obligations.HostNeverReadsKeyMaterial
  refine fun s t h he => ⟨fun s' => step_sameButSecrets h he, fun r hr => ?_⟩
  obtain ⟨hte, htn, hta⟩ := agents_of_sameButSecrets h
  obtain ⟨rfl, a, m, hn, ha⟩ := not_admits_of_refused he hr
  exact step_of_not_admits (hte.trans he) (htn.trans hn) ((hta a m).trans ha)

/-- Settles O56: the other events leave DATA_OUT as it was. -/
theorem dataOutHasFewWriters : Obligations.DataOutHasFewWriters := by
  unfold Obligations.DataOutHasFewWriters
  intro s t h hne
  rcases step_events h with ⟨c, rfl, -⟩ | ⟨k, n, e, -, -, rfl⟩ | ⟨-, rfl⟩ | ⟨-, rfl⟩ |
    ⟨l, hc, -, -, -, rfl⟩ | ⟨hc, -, -, -, rfl⟩ | ⟨hc, rfl⟩ | ⟨hc, -⟩ | ⟨hr, -⟩ | ⟨a, m, -, rfl⟩ | ⟨-, -, rfl⟩
  · exact absurd rfl hne
  · exact absurd rfl hne
  · exact absurd rfl hne
  · exact absurd rfl hne
  · exact .inr (.inr ⟨rfl, .inl ⟨l, hc⟩⟩)
  · exact .inr (.inr ⟨rfl, .inr (.inl hc)⟩)
  · exact .inr (.inr ⟨rfl, .inr (.inr hc)⟩)
  · exact .inr (.inl hc)
  · exact .inl hr
  · obtain ⟨-, -, -, -, hout, -⟩ := perform_keeps (s.countAccess m) a
    exact absurd hout hne
  · exact absurd rfl hne

/-- Settles O57: of the other events only an access can change DATA_IN, and only as a write to the word. -/
theorem dataInHasFewWriters : Obligations.DataInHasFewWriters := by
  unfold Obligations.DataInHasFewWriters
  intro s t i h hne
  rcases step_events h with ⟨c, rfl, -⟩ | ⟨k, n, e, -, -, rfl⟩ | ⟨-, rfl⟩ | ⟨-, rfl⟩ | ⟨l, -, -, -, -, rfl⟩ |
    ⟨-, -, -, -, rfl⟩ | ⟨-, rfl⟩ | ⟨hc, -⟩ | ⟨hr, -⟩ | ⟨a, m, ha, rfl⟩ | ⟨-, -, rfl⟩
  · exact absurd rfl hne
  · exact absurd rfl hne
  · exact absurd rfl hne
  · exact absurd rfl hne
  · exact absurd rfl hne
  · exact absurd rfl hne
  · exact absurd rfl hne
  · exact .inr (.inl hc)
  · exact .inl hr
  · obtain ⟨v, rfl, hv⟩ := perform_dataIn_ne (s := s.countAccess m) hne
    exact .inr (.inr ⟨m, v, ha, hv⟩)
  · exact absurd rfl hne

/-- Settles O58: INIT, CLEAR and reset zeroise, and of the other events only an access can change the staging
registers. -/
theorem stagingIsZeroisedAfterUse : Obligations.StagingIsZeroisedAfterUse := by
  unfold Obligations.StagingIsZeroisedAfterUse
  refine fun s t h => ⟨?_, fun hreset hclear hinit hne => ?_⟩
  · rintro (hr | hc | ⟨k, n, hc⟩)
    · cases h.symm.trans (step_of_resets hr)
      exact ⟨rfl, rfl⟩
    · cases exec_of_completes hc h
      exact ⟨rfl, rfl⟩
    · exact staging_of_init (exec_of_completes hc h)
  · have hsame : ¬ (s.keyIn ≠ s.keyIn ∨ s.nonceIn ≠ s.nonceIn) := by simp
    rcases step_events h with ⟨c, rfl, -⟩ | ⟨k, n, e, hc, -⟩ | ⟨-, rfl⟩ | ⟨hc, -⟩ | ⟨l, -, -, -, -, rfl⟩ |
      ⟨-, -, -, -, rfl⟩ | ⟨-, rfl⟩ | ⟨hc, -⟩ | ⟨hr, -⟩ | ⟨a, m, ha, rfl⟩ | ⟨-, -, rfl⟩
    · exact absurd hne hsame
    · exact absurd hc (hinit k n)
    · exact absurd hne hsame
    · exact absurd hc (hinit 32 8)
    · exact absurd hne hsame
    · exact absurd hne hsame
    · exact absurd hne hsame
    · exact absurd hc hclear
    · exact absurd hr hreset
    · obtain ⟨off, v, rfl, hoff⟩ := perform_staging_ne (s := s.countAccess m) hne
      exact ⟨off, v, m, ha, hoff⟩
    · exact absurd hne hsame

/-- Settles O59: a step leaves FAULTS alone, or inserts the one record of its bus error. -/
theorem faultRecordsAreNeverRemoved : Obligations.FaultRecordsAreNeverRemoved := by
  unfold Obligations.FaultRecordsAreNeverRemoved
  intro s t h
  rcases step_faults h with e | ⟨a, m, r, ha, rfl⟩
  · exact ⟨fun f hf => e ▸ hf, fun hne => absurd e hne⟩
  · exact ⟨fun f hf => List.mem_insert_of_mem hf,
      fun _ => ⟨a, m, r, ha, rfl, fun f hf => (List.mem_insert_iff.mp hf).symm⟩⟩

end

section
/-! SUPPORT. The rotation bit by bit, quarter-rounds on disjoint groups, and block inputs that differ in their
counter words only. -/

namespace Sys2Proof.Machine

/-- Bit `i` of a left rotation by `n` is bit `i - n`, modulo 32 (R8). -/
theorem rotl_getLsbD (v : Word) {n i : Nat} (hn : n < 32) (hi : i < 32) :
    (rotl v n).getLsbD i = v.getLsbD ((i + (32 - n)) % 32) := by
  rw [rotl_eq_rotateLeft v hn, BitVec.getLsbD_rotateLeft, Nat.mod_eq_of_lt hn]
  by_cases h : i < n
  · have hbit : (i + (32 - n)) % 32 = 32 - n + i := by omega
    simp [h, hbit]
  · have hbit : (i + (32 - n)) % 32 = i - n := by omega
    simp [h, hi, hbit]

/-! ## Quarter-rounds in any order (R123, R124) -/

/-- The word indices of a group. -/
def Group.indices : Group → List (Fin 16)
  | (i, j, k, l) => [i, j, k, l]

theorem qrOn_getElem_outside (W : Block) {g : Group} {n : Fin 16} (h : n ∉ g.indices) :
    (qrOn W g)[n] = W[n] := qrOn_getElem_of_not_mem W h

/-- A word of `qrOn` depends on that word and the group's words only. -/
theorem qrOn_getElem_congr {V W : Block} {g : Group} {n : Fin 16} (hg : ∀ m ∈ g.indices, V[m] = W[m])
    (hn : V[n] = W[n]) : (qrOn V g)[n] = (qrOn W g)[n] := by
  obtain ⟨i, j, k, l⟩ := g
  simp only [Group.indices, List.mem_cons, List.not_mem_nil, or_false, forall_eq_or_imp, forall_eq] at hg
  obtain ⟨hi, hj, hk, hl⟩ := hg
  simp only [qrOn_getElem, hi, hj, hk, hl, hn]

/-- Outside the first of two disjoint groups, the order of their quarter-rounds does not show. -/
theorem qrOn_qrOn_getElem (W : Block) {g h : Group} (hd : g.indices.Disjoint h.indices) {n : Fin 16}
    (hn : n ∉ g.indices) : (qrOn (qrOn W g) h)[n] = (qrOn (qrOn W h) g)[n] := by
  have hsame : (qrOn (qrOn W g) h)[n] = (qrOn W h)[n] :=
    qrOn_getElem_congr (fun m hm => qrOn_getElem_outside W (hd.symm hm)) (qrOn_getElem_outside W hn)
  rw [hsame, qrOn_getElem_outside _ hn]

/-- Quarter-rounds on disjoint groups commute. -/
theorem qrOn_comm (W : Block) {g h : Group} (hd : g.indices.Disjoint h.indices) :
    qrOn (qrOn W g) h = qrOn (qrOn W h) g := by
  refine block_ext fun n => ?_
  by_cases hn : n ∈ g.indices
  · exact (qrOn_qrOn_getElem W hd.symm (hd hn)).symm
  · exact qrOn_qrOn_getElem W hd hn

/-- A round whose groups are pairwise equal or disjoint may take them in any order. -/
theorem foldl_qrOn_of_perm {gs hs : List Group} (hp : gs.Perm hs)
    (hd : ∀ g ∈ hs, ∀ h ∈ hs, g = h ∨ ∀ n ∈ g.indices, n ∉ h.indices) (W : Block) :
    gs.foldl qrOn W = hs.foldl qrOn W := by
  refine hp.foldl_eq' (fun g hg h hh V => ?_) W
  rcases hd g (hp.mem_iff.mp hg) h (hp.mem_iff.mp hh) with rfl | hdis
  · rfl
  · exact qrOn_comm V fun n hn => hdis n hn

/-! ## The block input (R141, R142) -/

/-- `KSIN(c)` does not look at the counter words that S holds. -/
theorem blockInput_set_counter (S : Block) (lo hi : Word) (c : U64) :
    blockInput ((S.set 12 lo).set 13 hi) c = blockInput S c := by
  simp [blockInput]

theorem keystreamBlock_blockInput (S : Block) (c d : U64) :
    keystreamBlock (blockInput S c) d = keystreamBlock S d := by
  unfold keystreamBlock
  rw [blockInput_blockInput]

/-- The keystream does not change with the counter that S holds (R142). -/
theorem keystreamByte_blockInput (S : Block) (c : U64) (n : Nat) :
    keystreamByte (blockInput S c) n = keystreamByte S n := by
  unfold keystreamByte
  rw [keystreamBlock_blockInput]

theorem lowWord_eq_ofNat (c : U64) : lowWord c = BitVec.ofNat 32 (c.toNat % 2 ^ 32) := by
  rw [← lowWord_toNat, BitVec.ofNat_toNat, BitVec.setWidth_eq]

theorem highWord_eq_ofNat (c : U64) : highWord c = BitVec.ofNat 32 (c.toNat / 2 ^ 32) := by
  rw [← highWord_toNat, BitVec.ofNat_toNat, BitVec.setWidth_eq]

end Sys2Proof.Machine
end

section
/-! SUPPORT. APPLY and KSBLOCK on the stream: the output byte by byte and word by word, the counter at its
limit, and what a success does to the stream position. -/

namespace Sys2Proof.Machine

/-! ## The output of a chunk (R163, R164) -/

/-- The keystream byte that meets data byte `i` of a chunk, whatever the state (R163). -/
def State.streamByte (s : State) (i : Nat) : Byte :=
  byteOf (if (s.ksPos.toNat + i) / 64 = 0 then s.streamBlock 0 else s.streamBlock 1)
    ((s.ksPos.toNat + i) % 64)

theorem byteOf_chunkOutput_xor (s : State) (len : Nat) {i : Nat} (hi : i < 64) :
    byteOf (s.chunkOutput len) i = if i < len then byteOf s.dataIn i ^^^ s.streamByte i else 0 :=
  byteOf_wordsOfBytes _ hi

/-- The keystream byte is one of S and KS_POS alone. -/
theorem streamByte_congr {s r : State} (hS : r.cipher = s.cipher) (hp : r.ksPos = s.ksPos) (i : Nat) :
    r.streamByte i = s.streamByte i := by
  simp only [State.streamByte, State.streamBlock, State.firstBlock, State.ctr_eq, hS, hp]

theorem counterAfter_congr {s r : State} (hS : r.cipher = s.cipher) (hp : r.ksPos = s.ksPos) (len : Nat) :
    r.counterAfter len = s.counterAfter len := by
  simp only [State.counterAfter, State.firstBlock, State.ctr_eq, hS, hp]

/-- What a successful APPLY leaves in S and KS_POS depends on them alone. -/
theorem applied_congr {s r : State} (hS : r.cipher = s.cipher) (hp : r.ksPos = s.ksPos) (len : Nat) :
    (r.applied len).cipher = (s.applied len).cipher ∧ (r.applied len).ksPos = (s.applied len).ksPos := by
  simp only [State.applied, counterAfter_congr hS hp, hS, hp, and_self]

/-- The state with a chunk's data in DATA_IN. -/
def State.withData (s : State) (D : Block) : State := { s with dataIn := D }

/-- Of what a successful APPLY leaves, only DATA_IN and DATA_OUT depend on the data. -/
theorem applied_withData (s : State) (D : Block) (len : Nat) : (s.withData D).applied len =
    { s.applied len with dataIn := D, dataOut := (s.withData D).chunkOutput len } := by
  have hc : (s.withData D).counterAfter len = s.counterAfter len := counterAfter_congr rfl rfl len
  unfold State.applied
  rw [hc]
  rfl

/-- A device with the S, VALID and KS_POS of a successful APPLY succeeds as well. -/
theorem execApply_succeeds_of_same {s t r : State} {len : Nat} (h : execApply len s = .next t)
    (he : t.err = 0) (hS : r.cipher = s.cipher) (hv : r.valid = s.valid) (hp : r.ksPos = s.ksPos) :
    execApply len r = .next (r.applied len) := by
  obtain ⟨hl, hsv, hc, -⟩ := execApply_ok h he
  exact execApply_succeeds r hl (hv.trans hsv) (by rw [counterAfter_congr hS hp]; exact hc)

/-- XORing twice with the keystream gives the data back. -/
theorem byteOf_chunkOutput_twice {s r : State} (hS : r.cipher = s.cipher) (hp : r.ksPos = s.ksPos)
    {len : Nat} (hD : r.dataIn = s.chunkOutput len) (hl : len ≤ 64) {i : Nat} (hi : i < len) :
    byteOf (r.chunkOutput len) i = byteOf s.dataIn i := by
  rw [byteOf_chunkOutput_xor r len (by omega), if_pos hi, hD, byteOf_chunkOutput_xor s len (by omega),
    if_pos hi, streamByte_congr hS hp, BitVec.xor_assoc, BitVec.xor_self, BitVec.xor_zero]

/-- Two data blocks on one stream position differ in each output byte as they differ themselves. -/
theorem byteOf_chunkOutput_diff {s r : State} (hS : r.cipher = s.cipher) (hp : r.ksPos = s.ksPos)
    (len : Nat) {i : Nat} (hi : i < 64) :
    byteOf (r.chunkOutput len) i ^^^ byteOf (s.chunkOutput len) i =
      if i < len then byteOf r.dataIn i ^^^ byteOf s.dataIn i else 0 := by
  rw [byteOf_chunkOutput_xor r len hi, byteOf_chunkOutput_xor s len hi, streamByte_congr hS hp]
  split
  · rw [BitVec.xor_comm (byteOf s.dataIn i), BitVec.xor_assoc, ← BitVec.xor_assoc (s.streamByte i),
      BitVec.xor_self, BitVec.zero_xor]
  · exact BitVec.xor_self

/-! ## A full chunk, word by word -/

/-- The word-wise XOR of two blocks. -/
def xorBlocks (B C : Block) : Block := Vector.ofFn fun i => B[i] ^^^ C[i]

theorem xorBlocks_getElem (B C : Block) (i : Fin 16) : (xorBlocks B C)[i] = B[i] ^^^ C[i] := by
  simp [xorBlocks]

theorem byteOf_xorBlocks (B C : Block) {j : Nat} (hj : j < 64) :
    byteOf (xorBlocks B C) j = byteOf B j ^^^ byteOf C j := by
  have h : j / 4 < 16 := by omega
  rw [byteOf_of_lt _ h, byteOf_of_lt _ h, byteOf_of_lt _ h, ← BitVec.extractLsb'_xor]
  exact congrArg _ (xorBlocks_getElem B C ⟨j / 4, h⟩)

theorem xorBlocks_zeros (B : Block) : xorBlocks (zeros 16) B = B :=
  block_ext fun i => by rw [xorBlocks_getElem, Fin.getElem_fin, zeros_getElem]; exact BitVec.zero_xor

theorem streamPos_eq_ite (s : State) : s.streamPos = if s.ksPos.toNat = 0 then 64 * (s.ctr.toNat : Int)
    else 64 * ((s.ctr.toNat : Int) - 1) + s.ksPos.toNat := by
  simp only [State.streamPos, ksPos_eq_zero_iff]

theorem streamPos_of_ksPos_zero {s : State} (hp : s.ksPos = 0) :
    s.streamPos = (64 * s.ctr.toNat : Nat) := by
  unfold State.streamPos
  rw [if_pos hp]
  rfl

/-- From KS_POS = 0 a full chunk is XORed with the one block of the counter. -/
theorem chunkOutput_full {s : State} (hp : s.ksPos = 0) :
    s.chunkOutput 64 = xorBlocks s.dataIn (keystreamBlock s.cipher s.ctr) := by
  have hblock : s.streamBlock 0 = keystreamBlock s.cipher s.ctr := by
    rw [streamBlock_eq s (streamPos_of_ksPos_zero hp), Nat.add_zero, Nat.mul_div_cancel_left _ (by decide),
      BitVec.ofNat_toNat, BitVec.setWidth_eq]
  have hpos : s.ksPos.toNat = 0 := (ksPos_eq_zero_iff s).mp hp
  refine block_ext_bytes fun j hj => ?_
  have hbyte : s.streamByte j = byteOf (keystreamBlock s.cipher s.ctr) j := by
    unfold State.streamByte
    rw [hpos, Nat.zero_add, if_pos (by omega), Nat.mod_eq_of_lt hj, hblock]
  rw [byteOf_chunkOutput_xor s 64 hj, if_pos hj, hbyte, byteOf_xorBlocks _ _ hj]

/-! ## The counter of a chunk (R163, R166) -/

theorem counterAfter_zero (s : State) : s.counterAfter 0 = s.ctr.toNat := by
  have hlt := s.ksPos.isLt
  rw [counterAfter_eq_div, streamPos_eq_ite]
  split <;> omega

/-- From KS_POS = 0 every chunk that is not empty needs a new block. -/
theorem counterAfter_of_aligned {s : State} {len : Nat} (hp : s.ksPos = 0) (h1 : 1 ≤ len) (hl : len ≤ 64) :
    s.counterAfter len = (s.ctr.toNat : Int) + 1 := by
  rcases counterAfter_cases s hl with ⟨-, h0, -⟩ | ⟨e, -⟩
  · have := h0 hp
    omega
  · exact e

/-- A chunk that fits into the residue of the last block needs no new one. -/
theorem counterAfter_of_residue {s : State} {len : Nat} (hp : s.ksPos ≠ 0)
    (hl : s.ksPos.toNat + len ≤ 64) : s.counterAfter len = s.ctr.toNat := by
  rcases counterAfter_cases s (len := len) (by omega) with ⟨e, -⟩ | ⟨-, h⟩
  · exact e
  · have := h hp
    omega

/-- A chunk that goes past the residue of the last block needs a new one. -/
theorem counterAfter_past_residue {s : State} {len : Nat} (hl : len ≤ 64)
    (h : 64 < s.ksPos.toNat + len) : s.counterAfter len = (s.ctr.toNat : Int) + 1 := by
  rcases counterAfter_cases s hl with ⟨-, -, h'⟩ | ⟨e, -⟩
  · omega
  · exact e

/-- At the counter's limit a chunk that needs a new block is refused (R146). -/
theorem execApply_at_limit {s : State} {len : Nat} (hl : len ≤ 64) (hv : s.valid = true)
    (hc : s.ctr.toNat = maxCounter) (hnew : s.counterAfter len = (s.ctr.toNat : Int) + 1) :
    execApply len s = .next (s.finish 7) :=
  execApply_exhausted s hl hv (by omega)

/-- The block input of the counter as it stands is S (R141). -/
theorem blockInput_ofNat_ctr (s : State) : blockInput s.cipher (BitVec.ofNat 64 s.ctr.toNat) = s.cipher := by
  rw [← ofNat_of_toNat_eq rfl, State.ctr_eq, blockInput_counterOf]

theorem ctr_le_maxCounter (s : State) : s.ctr.toNat ≤ maxCounter := Nat.le_pred_of_lt s.ctr.isLt

/-- A chunk that needs no new block succeeds and leaves S as it was, at the limit too. -/
theorem execApply_without_new_block {s : State} {len : Nat} (hl : len ≤ 64) (hv : s.valid = true)
    (hsame : s.counterAfter len = s.ctr.toNat) :
    execApply len s = .next (s.applied len) ∧ (s.applied len).cipher = s.cipher := by
  have hmax := ctr_le_maxCounter s
  refine ⟨execApply_succeeds s hl hv (by omega), ?_⟩
  show blockInput s.cipher (BitVec.ofNat 64 (s.counterAfter len).toNat) = s.cipher
  rw [hsame, Int.toNat_natCast, blockInput_ofNat_ctr]

theorem chunkOutput_zero (s : State) : s.chunkOutput 0 = zeros 16 :=
  block_ext_bytes fun j hj => by rw [byteOf_chunkOutput_xor s 0 hj, if_neg (Nat.not_lt_zero j), byteOf_zeros]

/-- An empty chunk writes DATA_OUT to zero and moves nothing. -/
theorem applied_zero (s : State) : s.applied 0 = { s with
    dataOut := zeros 16, work := zeros 16, keystream := zeros 16
    err := 0, busy := false, pending := none } := by
  have hp : BitVec.ofNat 6 ((s.ksPos.toNat + 0) % 64) = s.ksPos := by
    rw [Nat.add_zero, Nat.mod_eq_of_lt s.ksPos.isLt, BitVec.ofNat_toNat, BitVec.setWidth_eq]
  unfold State.applied
  rw [counterAfter_zero, Int.toNat_natCast, blockInput_ofNat_ctr, hp, chunkOutput_zero]

/-- From KS_POS = 0 with zero data a full chunk leaves what KSBLOCK leaves. -/
theorem applied_full_of_zeros {s : State} (hp : s.ksPos = 0) (hD : s.dataIn = zeros 16) :
    s.applied 64 = s.blockDelivered := by
  have hctr : (s.counterAfter 64).toNat = s.ctr.toNat + 1 := by
    rw [counterAfter_of_aligned hp (by decide) (by decide)]
    omega
  have hpos : BitVec.ofNat 6 ((s.ksPos.toNat + 64) % 64) = s.ksPos := by rw [hp]; rfl
  unfold State.applied State.blockDelivered
  rw [hctr, hpos, chunkOutput_full hp, hD, xorBlocks_zeros]

/-! ## The stream position (R161, R166) -/

/-- A successful chunk moves the stream position by its length. -/
theorem applied_streamPos {s : State} {len : Nat} (hl : len ≤ 64) (hc : s.counterAfter len ≤ maxCounter) :
    (s.applied len).streamPos = s.streamPos + len := by
  have hctr : ((s.applied len).ctr.toNat : Int) = (s.streamPos + len + 63) / 64 := by
    rw [applied_ctr s hl hc, counterAfter_eq_div]
  have hpos : (s.applied len).ksPos.toNat = (s.ksPos.toNat + len) % 64 :=
    Nat.mod_eq_of_lt (Nat.mod_lt _ (by decide))
  have hsplit := s.firstBlock_mul_add
  rw [streamPos_eq_ite (s.applied len), hctr, hpos]
  split <;> omega

/-- The position of a state that meets the invariant is a natural number (R25). -/
theorem streamPos_natural {s : State} (hs : s.Inv) : ∃ P : Nat, s.streamPos = P := by
  by_cases hp : s.ksPos = 0
  · exact ⟨_, streamPos_of_ksPos_zero hp⟩
  · have h1 := hs.partial_after_block hp
    refine ⟨64 * (s.ctr.toNat - 1) + s.ksPos.toNat, ?_⟩
    unfold State.streamPos
    rw [if_neg hp]
    omega

/-! ## Sequences of commands (R147, R167) -/

/-- From KS_POS = 0 every KSBLOCK short of the limit succeeds, and `n` of them add `n` to the counter. -/
theorem ksblocks_counter (n : Nat) {s : State} (hv : s.valid = true) (hp : s.ksPos = 0)
    (hc : s.ctr.toNat + n ≤ maxCounter) :
    ∃ t, s.ksblocks n = some t ∧ t.valid = true ∧ t.ksPos = 0 ∧ t.ctr.toNat = s.ctr.toNat + n := by
  induction n generalizing s with
  | zero => exact ⟨s, rfl, hv, hp, rfl⟩
  | succ n ih =>
    have hlt : s.ctr.toNat < maxCounter := by omega
    have hctr := blockDelivered_ctr hlt
    obtain ⟨t, ht, htv, htp, htc⟩ := ih (s := s.blockDelivered) hv hp (by omega)
    have hstep : s.ksblocks (n + 1) = s.blockDelivered.ksblocks n := by
      have hx : exec .ksblock s = .next s.blockDelivered := execKsblock_delivers hv hp hlt
      rw [State.ksblocks, hx]
      rfl
    exact ⟨t, hstep.trans ht, htv, htp, by omega⟩

theorem firstBytes_length (len : Nat) (B : Block) : (firstBytes len B).length = len := by
  simp [firstBytes]

/-- The keystream of two byte strings in a row is that of the whole (R143). -/
theorem xorKeystream_append (S : Block) (P : Nat) (a b : List Byte) :
    xorKeystream S P (a ++ b) = xorKeystream S P a ++ xorKeystream S (P + a.length) b := by
  unfold xorKeystream
  rw [List.mapIdx_append]
  simp only [Nat.add_assoc, Nat.add_comm a.length]

theorem xorKeystream_blockInput (S : Block) (c : U64) (P : Nat) (bytes : List Byte) :
    xorKeystream (blockInput S c) P bytes = xorKeystream S P bytes := by
  simp only [xorKeystream, keystreamByte_blockInput]

/-- The output bytes of a chunk at position `P` are its data XORed with the keystream from `P` on. -/
theorem firstBytes_chunkOutput {s : State} {P len : Nat} (hP : s.streamPos = P) (hl : len ≤ 64) :
    firstBytes len (s.chunkOutput len) = xorKeystream s.cipher P (firstBytes len s.dataIn) := by
  refine List.ext_getElem (by simp [firstBytes, xorKeystream]) fun i h _ => ?_
  have hi : i < len := by simpa [firstBytes] using h
  simp only [firstBytes, xorKeystream, List.getElem_map, List.getElem_range, List.getElem_mapIdx]
  rw [byteOf_chunkOutput s hP (by omega), if_pos hi]

/-- A chunk whose APPLY succeeds puts its output before that of the chunks after it. -/
theorem applyChunks_cons {s t : State} {len : Nat} {D : Block} {chunks : List (Nat × Block)}
    {out : List Byte} (hx : execApply len (s.withData D) = .next ((s.withData D).applied len))
    (hrest : ((s.withData D).applied len).applyChunks chunks = some (out, t)) :
    s.applyChunks ((len, D) :: chunks) = some (firstBytes len ((s.withData D).chunkOutput len) ++ out, t) := by
  have hx : exec (.apply len) { s with dataIn := D } = .next ((s.withData D).applied len) := hx
  rw [State.applyChunks, hx]
  dsimp only
  rw [if_pos (show ((s.withData D).applied len).err = 0 from rfl), hrest]
  rfl

/-- Any list of chunks short of exhaustion is one XOR with the keystream from the position on (R167). -/
theorem applyChunks_xorKeystream (chunks : List (Nat × Block)) {s : State} {P : Nat} (hv : s.valid = true)
    (hP : s.streamPos = P) (hl : ∀ c ∈ chunks, c.1 ≤ 64)
    (hc : (P + (chunks.map Prod.fst).sum + 63) / 64 ≤ maxCounter) :
    ∃ t, s.applyChunks chunks = some (xorKeystream s.cipher P (chunkData chunks), t) ∧
      t.streamPos = (P + (chunks.map Prod.fst).sum : Nat) ∧ t.cipher = blockInput s.cipher t.ctr ∧
      t.valid = true := by
  induction chunks generalizing s P with
  | nil => exact ⟨s, rfl, hP, by rw [State.ctr_eq, blockInput_counterOf], hv⟩
  | cons c chunks ih =>
    obtain ⟨len, D⟩ := c
    have hlen : len ≤ 64 := hl (len, D) (List.mem_cons_self ..)
    have hrest : ∀ c ∈ chunks, c.1 ≤ 64 := fun c h => hl c (List.mem_cons_of_mem _ h)
    rw [List.map_cons, List.sum_cons, ← Nat.add_assoc] at hc ⊢
    have hP' : (s.withData D).streamPos = P := hP
    have hlimit : (P + len + 63) / 64 ≤ maxCounter := by omega
    have hctr : (s.withData D).counterAfter len ≤ maxCounter := by
      rw [counterAfter_of_streamPos hP']
      exact Int.ofNat_le.mpr hlimit
    have hpos : ((s.withData D).applied len).streamPos = (P + len : Nat) := by
      rw [applied_streamPos hlen hctr, hP']
      rfl
    obtain ⟨t, ht, htp, htc, htv⟩ := ih (s := (s.withData D).applied len) hv hpos hrest hc
    refine ⟨t, ?_, htp, htc, htv⟩
    rw [applyChunks_cons (execApply_succeeds_of_streamPos (s := s.withData D) hlen hv hP' hlimit) ht,
      firstBytes_chunkOutput hP' hlen]
    have hdata : chunkData ((len, D) :: chunks) = firstBytes len D ++ chunkData chunks := rfl
    rw [hdata, xorKeystream_append, firstBytes_length]
    exact congrArg (fun rest => some (_ ++ rest, t)) (xorKeystream_blockInput s.cipher _ _ _)

end Sys2Proof.Machine
end

section
/-! The statements about the transform, the keystream and the stream. -/

open Sys2Proof Sys2Proof.Machine

/-- Settles O24: the groups of a round are disjoint, so their quarter-rounds commute. -/
theorem quarterRoundsOfARoundCommute : Obligations.QuarterRoundsOfARoundCommute := by
  unfold Obligations.QuarterRoundsOfARoundCommute
  exact fun W gs => ⟨fun hp => foldl_qrOn_of_perm hp (by decide) W,
    fun hp => foldl_qrOn_of_perm hp (by decide) W⟩

/-- Settles O28: a command that needs a new block would leave the counter at 2^64. -/
theorem exhaustedCounterDeliversNoNewBlock : Obligations.ExhaustedCounterDeliversNoNewBlock := by
  unfold Obligations.ExhaustedCounterDeliversNoNewBlock
  refine fun s hv hc => ⟨fun hp => execKsblock_exhausted hv hp hc, fun hp len h1 hl => ?_,
    fun hp len hl h => ?_, fun hp len hl => ?_⟩
  · exact execApply_at_limit hl hv hc (counterAfter_of_aligned hp h1 hl)
  · exact execApply_at_limit hl hv hc (counterAfter_past_residue hl h)
  · obtain ⟨hx, hS⟩ := execApply_without_new_block (by omega) hv (counterAfter_of_residue hp hl)
    exact ⟨s.applied len, hx, rfl, hS⟩

/-- Settles O29: by induction on the number of blocks; the words of 2^32 are 0 and 1. -/
theorem ksblocksCarryIntoTheHighWord : Obligations.KsblocksCarryIntoTheHighWord := by
  unfold Obligations.KsblocksCarryIntoTheHighWord
  refine ⟨fun s n => ksblocks_counter n, fun s hv hp hc => ?_⟩
  have h0 : s.ctr.toNat = 0 := by rw [hc]; rfl
  obtain ⟨t, ht, -, -, hctr⟩ := ksblocks_counter (2 ^ 32) hv hp (by rw [h0]; decide)
  have hwords : t.ctr.toNat = t.cipher[12].toNat + 2 ^ 32 * t.cipher[13].toNat := counterOf_toNat t.cipher
  have hlo := t.cipher[12].isLt
  refine ⟨t, ht, BitVec.eq_of_toNat_eq ?_, BitVec.eq_of_toNat_eq ?_⟩
  · show _ = 0
    omega
  · show _ = 1
    omega

/-- Settles O30: the position of such a state is a natural number, which splits into block and offset. -/
theorem counterAndOffsetEncodeThePosition : Obligations.CounterAndOffsetEncodeThePosition := by
  unfold Obligations.CounterAndOffsetEncodeThePosition
  refine ⟨fun s hs => ?_, fun s t h => ?_⟩
  · obtain ⟨P, hP⟩ := streamPos_natural hs
    obtain ⟨-, hp, hc⟩ := s.streamPos_split hP
    exact ⟨P, hP, hc, hp⟩
  · cases (execInit_succeeds s).symm.trans h
    have hctr : s.initialised.ctr = (0 : Word) ++ (0 : Word) := rfl
    rw [streamPos_of_ksPos_zero (s := s.initialised) rfl, hctr]
    rfl

/-- Settles O31: an empty chunk needs no block, and VALID is checked before the counter. -/
theorem applyZeroMovesNothing : Obligations.ApplyZeroMovesNothing := by
  unfold Obligations.ApplyZeroMovesNothing
  refine ⟨fun s hv => ?_, fun s => execApply_notInitialized s (by decide)⟩
  exact (execApply_without_new_block (by decide) hv (counterAfter_zero s)).1.trans
    (congrArg Host.Outcome.next (applied_zero s))

/-- Settles O32: the position moves by LEN, and the counter by 0 or 1 with it. -/
theorem applyMovesThePositionByLen : Obligations.ApplyMovesThePositionByLen := by
  unfold Obligations.ApplyMovesThePositionByLen
  intro s t len h he
  obtain ⟨hl, -, hc, rfl⟩ := execApply_ok h he
  have hctr := applied_ctr s hl hc
  refine ⟨applied_streamPos hl hc, ?_, fun hp h1 => ?_⟩
  · rcases counterAfter_cases s hl with ⟨e, -⟩ | ⟨e, -⟩ <;> omega
  · have := counterAfter_of_aligned hp h1 hl
    omega

/-- Settles O33: by induction on the chunks; the last position fixes the counter and KS_POS. -/
theorem chunkTransparency : Obligations.ChunkTransparency := by
  unfold Obligations.ChunkTransparency
  intro s chunks P hv hP hl hc
  obtain ⟨t, ht, htp, htc, htv⟩ := applyChunks_xorKeystream chunks hv hP hl hc
  obtain ⟨-, hpos, hctr⟩ := t.streamPos_split htp
  refine ⟨t, ht, htp, ?_, ?_, htv⟩
  · rw [← ofNat_of_toNat_eq hctr]
    exact htc
  · rw [← hpos, BitVec.ofNat_toNat, BitVec.setWidth_eq]

/-- Settles O34: S and KS_POS fix the keystream, and XORing with it twice changes nothing. -/
theorem applyTwiceGivesTheDataBack : Obligations.ApplyTwiceGivesTheDataBack := by
  unfold Obligations.ApplyTwiceGivesTheDataBack
  intro s t r len h he hS hv hp hD
  have hr := execApply_succeeds_of_same h he hS hv hp
  obtain ⟨hl, -, -, rfl⟩ := execApply_ok h he
  obtain ⟨hcipher, hpos⟩ := applied_congr hS hp len
  exact ⟨r.applied len, hr, rfl, hcipher, hpos, fun i hi => byteOf_chunkOutput_twice hS hp hD hl hi⟩

/-- Settles O35: other data meets the same keystream, and nothing but DATA_OUT comes from the data. -/
theorem corruptionStaysInItsByte : Obligations.CorruptionStaysInItsByte := by
  unfold Obligations.CorruptionStaysInItsByte
  intro s t D len h he
  have hr := execApply_succeeds_of_same (r := s.withData D) h he rfl rfl rfl
  obtain ⟨-, -, -, rfl⟩ := execApply_ok h he
  exact ⟨(s.withData D).chunkOutput len, hr.trans (congrArg Host.Outcome.next (applied_withData s D len)),
    fun i hi => byteOf_chunkOutput_diff (s := s) (r := s.withData D) rfl rfl len hi⟩

/-- Settles O36: from KS_POS = 0 all 64 bytes meet the one block of the counter. -/
theorem fullChunkIsWordwiseXor : Obligations.FullChunkIsWordwiseXor := by
  unfold Obligations.FullChunkIsWordwiseXor
  intro s hv hp hc
  have hctr := counterAfter_of_aligned (len := 64) hp (by decide) (by decide)
  have hmax : maxCounter = 2 ^ 64 - 1 := rfl
  refine ⟨s.applied 64, execApply_succeeds s (by decide) hv (by omega), fun i => ?_⟩
  show (s.chunkOutput 64)[i] = _
  rw [chunkOutput_full hp, xorBlocks_getElem]

/-- Settles O37: both are exhausted at the same counter value, and else leave the same state. -/
theorem ksblockIsApplyOfZeros : Obligations.KsblockIsApplyOfZeros := by
  unfold Obligations.KsblockIsApplyOfZeros
  intro s hv hp hD
  have hctr := counterAfter_of_aligned (len := 64) hp (by decide) (by decide)
  show execKsblock s = execApply 64 s
  rcases (ctr_le_maxCounter s).eq_or_lt with hc | hc
  · rw [execKsblock_exhausted hv hp hc, execApply_at_limit (by decide) hv hc hctr]
  · rw [execKsblock_delivers hv hp hc, execApply_succeeds s (by decide) hv (by omega),
      applied_full_of_zeros hp hD]

/-- Settles O21: the rotation is the library's, whose bits are known. -/
theorem rotlRotatesLeft : Obligations.RotlRotatesLeft := by
  unfold Obligations.RotlRotatesLeft
  exact fun v n i _ => rotl_getLsbD v

/-- Settles O25: the counter's two words as numbers, and `KSIN(ctr)` is S. -/
theorem blockInputIsInOrder : Obligations.BlockInputIsInOrder := by
  unfold Obligations.BlockInputIsInOrder
  refine ⟨fun S c => ?_, fun s => blockInput_counterOf s.cipher⟩
  rw [← lowWord_eq_ofNat, ← highWord_eq_ofNat]
  rfl

/-- Settles O26: the block input ignores the held counter words, and all else follows from it. -/
theorem keystreamIgnoresTheHeldCounter : Obligations.KeystreamIgnoresTheHeldCounter := by
  unfold Obligations.KeystreamIgnoresTheHeldCounter
  have hblock : ∀ (S : Block) lo hi c,
      keystreamBlock ((S.set 12 lo).set 13 hi) c = keystreamBlock S c :=
    fun S lo hi c => congrArg transform (blockInput_set_counter S lo hi c)
  exact fun S lo hi => ⟨hblock S lo hi, fun n => congrArg (byteOf · _) (hblock S lo hi _)⟩

end
